-- ==== Sys2Proof/Word.lean ====
section
/-! DEFINITION. The two word types of the block: bytes (00_scope.md R8) and command words (30_encoding.md R71). -/

namespace Sys2Proof

/-- An unsigned 8-bit quantity, the width of every datum of the block (00_scope.md R8). -/
abbrev Byte := BitVec 8

/-- A command word `cmd[9:0]` (30_encoding.md R71). -/
abbrev CmdWord := BitVec 10

end Sys2Proof
end

