-- ==== Sys2Proof/Syntax.lean ====
section
/-! DEFINITION. The commands of the block, one constructor per row of the opcode table. -/

namespace Sys2Proof

/-- A command (30_encoding.md R72 to R74). IDLE and RESET carry the `data` bits of their word, which the hardware
ignores (R76), so that every legal command word is exactly one term. DESIGN CHOICE, safe: log entry 9. -/
inductive Instr where
  /-- IDLE, `op = 0b00` (R72; 40_reset_idle.md R102). -/
  | idle (data : Byte)
  /-- BYTE, `op = 0b01`, the document's `acceptByte(b)` (R73; 41_accept_byte.md R110). -/
  | byte (b : Byte)
  /-- RESET, `op = 0b10`, the document's `reset()` (R74; 40_reset_idle.md R100). -/
  | reset (data : Byte)
deriving DecidableEq, Repr

end Sys2Proof
end

