-- ==== Sys2Proof/WellFormed.lean ====
section
/-! DEFINITION. Which commands and which command words a byte source may present. -/

namespace Sys2Proof

/-- Every operand value of every command is legal: all 256 bytes for BYTE (30_encoding.md R73), and the ignored bits
of IDLE and RESET may be anything (R76). -/
def Instr.wf : Instr → Bool
  | .idle _ => true
  | .byte _ => true
  | .reset _ => true

/-- A word a byte source may present: not one of the reserved words `0x300 .. 0x3FF` (30_encoding.md R75). -/
def CmdWord.legal (w : CmdWord) : Bool := w.toNat < 0x300

end Sys2Proof
end

