-- ==== Sys2Proof/Decode.lean ====
section
/-! DEFINITION. From command words to commands and back (30_encoding.md, sections 1 and 2). -/

namespace Sys2Proof

/-- `op = cmd[9:8]` (30_encoding.md R71). -/
def opField (w : CmdWord) : BitVec 2 := w.extractLsb' 8 2

/-- `data = cmd[7:0]`, the one operand, used without extension, scaling or shifting (30_encoding.md R71, R76). -/
def dataField (w : CmdWord) : Byte := w.extractLsb' 0 8

/-- The word `{op, data}`, op in the high bits (30_encoding.md R71). -/
def packWord (op : BitVec 2) (data : Byte) : CmdWord := op.setWidth 10 <<< 8 ||| data.setWidth 10

/-- Why a word is no command. -/
inductive DecodeError where
  /-- `op = 0b11` is reserved (30_encoding.md R75). -/
  | reservedOp (data : Byte)
deriving DecidableEq, Repr

/-- The command of a word: `op` alone decides (30_encoding.md R72 to R75, R77). -/
def decode (w : CmdWord) : Except DecodeError Instr :=
  match opField w with
  | 0b00#2 => .ok (.idle (dataField w))
  | 0b01#2 => .ok (.byte (dataField w))
  | 0b10#2 => .ok (.reset (dataField w))
  | 0b11#2 => .error (.reservedOp (dataField w))

/-- The commands of a stream of words, in order; the whole stream is refused at a reserved word (40_reset_idle.md R103). -/
def decodeStream : List CmdWord → Except DecodeError (List Instr)
  | [] => .ok []
  | w :: ws =>
    match decode w with
    | .error e => .error e
    | .ok i =>
      match decodeStream ws with
      | .error e => .error e
      | .ok is => .ok (i :: is)

/-- The word of a command (30_encoding.md R72 to R74). -/
def encode : Instr → CmdWord
  | .idle data => packWord 0b00 data
  | .byte b => packWord 0b01 b
  | .reset data => packWord 0b10 data

/-- The words of a sequence of commands. -/
def encodeStream (is : List Instr) : List CmdWord := is.map encode

/-- The command word in a number of `nbits` bits numbered as the opcode table numbers them. The block has ten command
pins (30_encoding.md R70, R71), so the padding bits of the table's whole-byte count reach none. DESIGN CHOICE, safe:
log entry 8. -/
def tableWord (nbits w : Nat) : CmdWord := BitVec.ofNat 10 (w % 2 ^ nbits)

/-- The command the decoder reads from a row's word, none where it refuses. -/
def decodeTableWord (nbits w : Nat) : Option Instr :=
  match decode (tableWord nbits w) with
  | .ok i => some i
  | .error _ => none

end Sys2Proof
end

