-- ==== Sys2Proof/Config.lean ====
section
/-! DEFINITION. What an instance fixes when it is built, and the values the spec leaves open (ANY): constants without a body. -/

namespace Sys2Proof

/-- The default payload capacity, 256 (00_scope.md R10; 92_eei_decisions.md D10). The capacity itself is the field
`cap` of State, so that a claim over states is a claim over every instance. DESIGN CHOICE, safe: log entry 1. -/
def Config.defaultCap : Fin 257 := 256

/-- FREE VALUE. What the read port gives at an index that is stale or has no storage (20_memory.md R53; 42_observation.md
R143): one draw for each edge count and index, so that a read may be repeated with the same answer until the next edge
(20_memory.md R56). No body: nothing can be proved of its values. Log entry 4. -/
opaque Config.staleByte (edge index : Nat) : Byte

/-- FREE VALUE. What a buffer element holds that no payload write has reached since power-on (10_state.md R23;
93_implementation_defined.md U7). No body. Log entry 5. -/
opaque Config.powerOnByte (index : Nat) : Byte

end Sys2Proof
end

