-- ==== Sys2Proof/Machine/State.lean ====
section
/-! DEFINITION. The state of one FrameDecoder instance, as plain data, and the reasons a step can stop. -/

namespace Sys2Proof.Machine

/-- The seven values of the phase register, in the order of their codes (10_state.md R21; 30_encoding.md R78). -/
inductive Phase where
  | awaitingStart
  | readingLength
  | readingPayload
  | readingChecksum
  | awaitingEnd
  | complete
  | error
deriving DecidableEq, Repr

/-- The field `res` of the result register (10_state.md R27): None, Continue, FrameReady, FrameRejected. -/
inductive Result where
  | none
  | cont
  | frameReady
  | frameRejected
deriving DecidableEq, Repr

/-- The field `reason` of the result register (10_state.md R27). -/
inductive Reason where
  | noReason
  | payloadTooLarge
  | unexpectedByte
deriving DecidableEq, Repr

/-- What the input pins hold at one rising edge: the hard reset and the command word (30_encoding.md R70). -/
structure EdgeInput where
  rst : Bool
  cmd : CmdWord
deriving DecidableEq, Repr

/-- The stored bytes of the payload buffer as (index, byte) pairs, indices strictly rising; an index that is not listed
holds its power-on contents. -/
abbrev Memory := List Host.Cell

/-- One instance. The first seven fields are the spec's whole state (10_state.md R20, section 7); the last three are the
model's own: the build parameter CAP (00_scope.md R10, log entry 1), what the environment presents at the coming edges
(log entry 2), and the count of edges that selects the free values of stale reads (log entry 4). -/
structure State where
  /-- 10_state.md R21 -/
  phase : Phase
  /-- `declaredLength`, 10_state.md R22 -/
  declLen : Byte
  /-- payload bytes written in this frame, 10_state.md R24 -/
  cursor : Byte
  /-- `checksum`, 10_state.md R25 -/
  chk : Byte
  /-- `payloadBuffer`, 10_state.md R23 -/
  buf : Memory
  /-- outcome of the latest edge, 10_state.md R27 -/
  res : Result
  /-- reason of a rejection at the latest edge, 10_state.md R27 -/
  reason : Reason
  /-- CAP, `0 .. 256`, fixed when the instance is built, 00_scope.md R10 -/
  cap : Fin 257
  /-- inputs of the coming edges, the next one first -/
  inputs : List EdgeInput
  /-- edges so far -/
  edge : Nat
deriving DecidableEq, Repr

/-- The block has no fault: "no fatal error in this component" (41_accept_byte.md R126), no trap and no handler
(60_exceptions.md R150, R157). So nothing raises one. -/
inductive Fault where
deriving DecidableEq, Repr

/-- Why the model takes no step. -/
inductive Refusal where
  /-- Raised by a command without a meaning in the dispatch; no command of this model. Safe. -/
  | notModelled (mnemonic : String)
  /-- Raised by the step at an edge with `rst = 0` whose word has `op = 0b11` (30_encoding.md R75; 40_reset_idle.md R103).
  Safe: the spec leaves the hardware's response unspecified. -/
  | reservedCommand (data : Byte)
  /-- Raised by the step when the environment presents no further edge: the run has ended (70_reset_and_hazards.md R190).
  Safe: log entry 2. -/
  | noInput
  /-- Raised by BYTE in ReadingPayload with `declLen <= CAP` but `cursor >= declLen`: no payload write is performed there
  (20_memory.md R52) and no row of the transition table applies; no reachable state is such (10_state.md R29;
  93_implementation_defined.md U5). Safe: log entry 6. -/
  | payloadPastDeclared
deriving DecidableEq, Repr

/-- What a step or a command answers. -/
abbrev Answer := Host.Outcome State Fault Refusal

/-- An instance of capacity `cap` right after a hard reset at power-on: the values of 10_state.md R31, no buffer element
written yet (R23: ANY, log entry 5). -/
def State.resetFor (cap : Fin 257) : State where
  phase := .awaitingStart
  declLen := 0
  cursor := 0
  chk := 0
  buf := []
  res := .none
  reason := .noReason
  cap := cap
  inputs := []
  edge := 0

/-- The machine right after reset, at the default capacity (00_scope.md R10; 10_state.md R31). -/
def State.reset : State := State.resetFor Config.defaultCap

end Sys2Proof.Machine
end

