-- ==== Sys2Proof/Machine/Operands.lean ====
section
/-! DEFINITION. The marker bytes, the byte classes and the comparisons the commands use (00_scope.md R11; 41_accept_byte.md R129). -/

namespace Sys2Proof.Machine

/-- Start-of-text marker (00_scope.md R11). -/
def stx : Byte := 0x02

/-- End-of-text marker (00_scope.md R11). -/
def etx : Byte := 0x03

/-- Complete and Error are the terminal phases (10_state.md R21). -/
def Phase.terminal : Phase → Bool
  | .awaitingStart => false
  | .readingLength => false
  | .readingPayload => false
  | .readingChecksum => false
  | .awaitingEnd => false
  | .complete => true
  | .error => true

/-- `declLen > CAP`, between natural numbers, CAP not truncated (41_accept_byte.md R117, R129). -/
def State.exceedsCap (s : State) : Bool := s.cap.val < s.declLen.toNat

/-- `cursor < declLen`: a payload byte is still due (20_memory.md R52; 41_accept_byte.md, the append row). -/
def State.payloadDue (s : State) : Bool := s.cursor.toNat < s.declLen.toNat

end Sys2Proof.Machine
end

