-- ==== Sys2Proof/Machine/Flags.lean ====
section
/-! DEFINITION. The result register and the derived flag: the block's only status (10_state.md R27, R28). -/

namespace Sys2Proof.Machine

/-- `emit r`: the outcome of an accepted byte (00_scope.md section 4; 10_state.md R27). -/
def State.emit (r : Result) (s : State) : State := { s with res := r, reason := .noReason }

/-- What IDLE, RESET and hard reset leave in the result register (10_state.md R27). -/
def State.noResult (s : State) : State := s.emit .none

/-- The flag `frame_valid`: the phase is Complete (10_state.md R28). -/
def State.frameValid (s : State) : Bool :=
  match s.phase with
  | .complete => true
  | .awaitingStart | .readingLength | .readingPayload | .readingChecksum | .awaitingEnd | .error => false

end Sys2Proof.Machine
end

