-- ==== Sys2Proof/Machine/Ops.lean ====
section
/-! DEFINITION. The shared operations: the payload buffer, the reset procedure, the rejection, the input of an edge. -/

namespace Sys2Proof.Machine

/-- The canonical form of the buffer: indices strictly rising. An unlisted index reads as no byte at all, so no entry can
equal what an unlisted index reads as. -/
abbrev Memory.wf (m : Memory) : Prop := (m.map Prod.fst).Pairwise (· < ·)

/-- What an index reads as that no write has reached: no byte (10_state.md R23, ANY; log entry 5). -/
def Memory.unlisted (_index : Nat) : Option Byte := none

/-- The byte written at an index, if any. -/
def Memory.read : Memory → Nat → Option Byte
  | [], i => Memory.unlisted i
  | (j, v) :: m, i => if j = i then some v else Memory.read m i

/-- Store one byte at an index, keeping the indices rising. -/
def Memory.write : Memory → Nat → Byte → Memory
  | [], i, v => [(i, v)]
  | (j, w) :: m, i, v =>
    if i < j then (i, v) :: (j, w) :: m
    else if i = j then (i, v) :: m
    else (j, w) :: Memory.write m i v

/-- `MemRead(i, 1)`, that is `buf[i]` (00_scope.md section 4): the byte stored there, or what the element held at
power-on (10_state.md R23). -/
def State.memRead (s : State) (i : Nat) : Byte :=
  match s.buf.read i with
  | some v => v
  | none => Config.powerOnByte i

/-- `MemWrite(i, 1, v)`, that is `buf[i] <- v` (00_scope.md section 4). -/
def State.memWrite (i : Nat) (v : Byte) (s : State) : State := { s with buf := s.buf.write i v }

/-- `resetCore(s)`: exactly four fields (40_reset_idle.md R101). It is also the return from a rejection
(60_exceptions.md R158). -/
def State.resetCore (s : State) : State :=
  { s with phase := .awaitingStart, declLen := 0, cursor := 0, chk := 0 }

/-- What RESET and a hard reset do (40_reset_idle.md R100; 70_reset_and_hazards.md R180). -/
def State.fullReset (s : State) : State := s.resetCore.noResult

/-- `raise FrameRejected(x)`, the block's only exception: nothing but phase, res and reason (60_exceptions.md R150, R157). -/
def State.reject (x : Reason) (s : State) : State :=
  { s with phase := .error, res := .frameRejected, reason := x }

/-- The append row (41_accept_byte.md R116): store the byte at the cursor, advance it, and leave ReadingPayload when it
reaches the declared length. -/
def State.append (b : Byte) (s : State) : State :=
  let n := s.cursor + 1
  let t := s.memWrite s.cursor.toNat b
  { t with cursor := n, phase := if n = s.declLen then .readingChecksum else .readingPayload }

/-- The state in which an edge performs its command: the edge's input is taken, and the edge is counted. -/
def State.beginEdge (rest : List EdgeInput) (s : State) : State :=
  { s with inputs := rest, edge := s.edge + 1 }

end Sys2Proof.Machine
end

