-- ==== Sys2Proof/Machine/AcceptByte.lean ====
section
/-! DEFINITION. BYTE, the document's `acceptByte(b)`: one definition per phase of the transition table (41_accept_byte.md R110). -/

namespace Sys2Proof.Machine

/-- AwaitingStart: STX starts a frame, any other byte is ignored (41_accept_byte.md R112, R113). -/
def acceptStart (b : Byte) (s : State) : State :=
  if b = stx then ({ s with phase := .readingLength } : State).emit .cont else s.emit .cont

/-- ReadingLength: the length is taken whatever it is; zero skips the payload (41_accept_byte.md R114, R115). -/
def acceptLength (b : Byte) (s : State) : State :=
  ({ s with declLen := b, cursor := 0, phase := if b = 0 then .readingChecksum else .readingPayload } : State).emit .cont

/-- ReadingPayload: the capacity is tested first (41_accept_byte.md R117, R121), then the byte is appended (R116). A write
is performed only when `cursor < declLen` (20_memory.md R52), which holds in every reachable state (10_state.md R29); a
state where it fails is refused (93_implementation_defined.md U5; DESIGN CHOICE, safe: log entry 6). -/
def acceptPayload (b : Byte) (s : State) : Answer :=
  if s.exceedsCap then .next (s.reject .payloadTooLarge)
  else if s.payloadDue then .next ((s.append b).emit .cont)
  else .refused .payloadPastDeclared

/-- ReadingChecksum: the byte is captured and not verified (41_accept_byte.md R118, R124). -/
def acceptChecksum (b : Byte) (s : State) : State :=
  ({ s with chk := b, phase := .awaitingEnd } : State).emit .cont

/-- AwaitingEnd: ETX completes the frame, any other byte rejects it (41_accept_byte.md R119, R120). -/
def acceptEnd (b : Byte) (s : State) : State :=
  if b = etx then ({ s with phase := .complete } : State).emit .frameReady else s.reject .unexpectedByte

/-- BYTE b (41_accept_byte.md R110). A terminal phase is reset first and the byte is taken as the first of a new frame
(R111). -/
def execByte (b : Byte) (s : State) : Answer :=
  match s.phase with
  | .awaitingStart => .next (acceptStart b s)
  | .readingLength => .next (acceptLength b s)
  | .readingPayload => acceptPayload b s
  | .readingChecksum => .next (acceptChecksum b s)
  | .awaitingEnd => .next (acceptEnd b s)
  | .complete => .next (acceptStart b s.resetCore)
  | .error => .next (acceptStart b s.resetCore)

end Sys2Proof.Machine
end

