-- ==== Sys2Proof/Machine/ResetIdle.lean ====
section
/-! DEFINITION. IDLE, RESET and the hard reset (40_reset_idle.md; 70_reset_and_hazards.md R180). -/

namespace Sys2Proof.Machine

/-- IDLE (40_reset_idle.md R102): the result register becomes None, NoReason; the data bits are ignored (30_encoding.md R76). -/
def execIdle (_data : Byte) (s : State) : Answer := .next s.noResult

/-- RESET (40_reset_idle.md R100), legal in every phase; the data bits are ignored (30_encoding.md R76). -/
def execReset (_data : Byte) (s : State) : Answer := .next s.fullReset

/-- An edge with `rst = 1` (70_reset_and_hazards.md R180). -/
def hardReset (s : State) : Answer := .next s.fullReset

end Sys2Proof.Machine
end

