-- ==== Sys2Proof/Machine/Dispatch.lean ====
section
/-! DEFINITION. One arm per command. -/

namespace Sys2Proof.Machine

def exec (i : Instr) (s : State) : Host.Outcome State Fault Refusal :=
  match i with
  | .idle data => Sys2Proof.Machine.execIdle data s
  | .byte b => Sys2Proof.Machine.execByte b s
  | .reset data => Sys2Proof.Machine.execReset data s

end Sys2Proof.Machine
end

