-- ==== Sys2Proof/Machine/Edge.lean ====
section
/-! DEFINITION. What one rising edge does with the values on the input pins (60_exceptions.md R156). -/

namespace Sys2Proof.Machine

/-- One rising edge with the input `e`: the hard reset wins over the command, whatever its word (70_reset_and_hazards.md
R180); otherwise the one command of the word is performed (60_exceptions.md R156), and a reserved word is refused
(30_encoding.md R75). -/
def performEdge (e : EdgeInput) (s : State) : Answer :=
  if e.rst then hardReset s
  else
    match decode e.cmd with
    | .ok i => exec i s
    | .error (.reservedOp data) => .refused (.reservedCommand data)

/-- Present a command word, with `rst = 0`, at the next edge in place of what was due there. -/
def State.presentNext (w : CmdWord) (s : State) : State :=
  { s with inputs := ⟨false, w⟩ :: s.inputs.tail }

end Sys2Proof.Machine
end

