-- ==== Sys2Proof/Machine/Step.lean ====
section
/-! DEFINITION. The step: one rising clock edge (00_scope.md R12, R13). -/

namespace Sys2Proof.Machine

/-- One rising edge. Without an input there is no edge: the run has ended (70_reset_and_hazards.md R190). -/
def step (s : State) : Host.Outcome State Fault Refusal :=
  match s.inputs with
  | [] => .refused .noInput
  | e :: rest => performEdge e (s.beginEdge rest)

/-- The state in which the byte source presents the table word `w` at the next edge, with `rst = 0` (log entry 3). -/
def State.withFetchWord (s : State) (nbits w : Nat) : State := s.presentNext (tableWord nbits w)

end Sys2Proof.Machine
end

