-- ==== Sys2Proof/Machine/Assembler.lean ====
section
/-! DEFINITION. The assembler notation for command streams (30_encoding.md R83, R84; 92_eei_decisions.md D17): its lines, their
expansion and encoding, and their text, given as a list of characters. -/

namespace Sys2Proof.Machine

/-- A line: a command, or a pseudo-instruction of 30_encoding.md R84. Numbers are as written, checked by `AsmLine.wf`. -/
inductive AsmLine where
  | idle
  | reset
  | byte (imm : Nat)
  | stx
  | etx
  | bytes (bs : List Nat)
  | frame (data : List Nat) (chk : Nat)
  | wait (k : Nat)
deriving DecidableEq, Repr

/-- An `imm8` is a number `0 .. 255` (30_encoding.md R83). -/
def isImm8 (n : Nat) : Bool := n < 256

/-- The bounds of 30_encoding.md R83 and R84: bytes below 256, at least one byte for BYTES, at most 255 for FRAME,
at least one edge for WAIT. -/
def AsmLine.wf : AsmLine → Bool
  | .idle | .reset | .stx | .etx => true
  | .byte imm => isImm8 imm
  | .bytes bs => !bs.isEmpty && bs.all isImm8
  | .frame data chk => decide (data.length ≤ 255) && data.all isImm8 && isImm8 chk
  | .wait k => decide (1 ≤ k)

/-- `BYTE n`. -/
def byteOf (n : Nat) : Instr := .byte (BitVec.ofNat 8 n)

/-- The commands of a frame on the wire (30_encoding.md R80, R84): STX, the length, the data, the checksum, ETX. -/
def frameCommands (data : List Byte) (chk : Byte) : List Instr :=
  .byte 0x02 :: .byte (BitVec.ofNat 8 data.length) :: (data.map Instr.byte ++ [.byte chk, .byte 0x03])

/-- The exact expansion of a line (30_encoding.md R83, R84); the data bits of IDLE and RESET are written as 0 (R76). -/
def AsmLine.expand : AsmLine → List Instr
  | .idle => [.idle 0]
  | .reset => [.reset 0]
  | .byte imm => [byteOf imm]
  | .stx => [.byte 0x02]
  | .etx => [.byte 0x03]
  | .bytes bs => bs.map byteOf
  | .frame data chk => frameCommands (data.map (BitVec.ofNat 8)) (BitVec.ofNat 8 chk)
  | .wait k => List.replicate k (.idle 0)

/-- The command words of a sequence of lines, none where a line breaks a bound. -/
def assemble : List AsmLine → Option (List CmdWord)
  | [] => some []
  | l :: ls => if l.wf then (assemble ls).map (encodeStream l.expand ++ ·) else none

/-! ### The text of a line

Blanks separate, a comma and the braces stand alone, and text after a semicolon is a comment. DESIGN CHOICE, safe: log
entry 14 (R83 and R84 show the notation and give no grammar). -/

/-- The brace that opens the data of FRAME (30_encoding.md R84). -/
def openBrace : Char := '\x7b'

/-- The brace that closes it. -/
def closeBrace : Char := '\x7d'

/-- A piece of a line. -/
inductive Token where
  | word (cs : List Char)
  | num (n : Nat)
  | comma
  | openB
  | closeB
  | bad
deriving DecidableEq, Repr

/-- The value of one digit in base 16, both cases of the letters. -/
def digitValue (c : Char) : Option Nat :=
  if '0' ≤ c ∧ c ≤ '9' then some (c.toNat - 48)
  else if 'a' ≤ c ∧ c ≤ 'f' then some (c.toNat - 87)
  else if 'A' ≤ c ∧ c ≤ 'F' then some (c.toNat - 55)
  else none

/-- The value of the digits that follow those of value `acc`. -/
def digitsValue (base : Nat) : Nat → List Char → Option Nat
  | acc, [] => some acc
  | acc, c :: cs =>
    match digitValue c with
    | some d => if d < base then digitsValue base (acc * base + d) cs else none
    | none => none

/-- A number: `0x..` hexadecimal, otherwise decimal (00_scope.md section 4; 30_encoding.md R83). -/
def numberValue : List Char → Option Nat
  | [] => none
  | '0' :: 'x' :: c :: cs => digitsValue 16 0 (c :: cs)
  | c :: cs => digitsValue 10 0 (c :: cs)

/-- The token of a finished word, put before the tokens that follow; the word is held backwards. -/
def endWord (acc : List Char) (rest : List Token) : List Token :=
  match acc with
  | [] => rest
  | c :: cs =>
    let w := (c :: cs).reverse
    match numberValue w with
    | some n => .num n :: rest
    | none => .word w :: rest

/-- A character literal means its ASCII code (93_implementation_defined.md K1); a character beyond ASCII has none. -/
def charLiteral (c : Char) : Token := if c.toNat < 128 then .num c.toNat else .bad

/-- The tokens of a line, after the word read so far. -/
def tokens : List Char → List Char → List Token
  | acc, [] => endWord acc []
  | acc, '\'' :: c :: '\'' :: cs => endWord acc (charLiteral c :: tokens [] cs)
  | acc, c :: cs =>
    if c = ';' then endWord acc []
    else if c = ' ' ∨ c = '\t' ∨ c = '\n' ∨ c = '\r' then endWord acc (tokens [] cs)
    else if c = ',' then endWord acc (.comma :: tokens [] cs)
    else if c = openBrace then endWord acc (.openB :: tokens [] cs)
    else if c = closeBrace then endWord acc (.closeB :: tokens [] cs)
    else tokens (c :: acc) cs

/-- Numbers with commas between them, up to the end of the line. -/
def numberList : List Token → Option (List Nat)
  | [.num n] => some [n]
  | .num n :: .comma :: ts => (numberList ts).map (n :: ·)
  | _ => none

/-- Numbers with commas between them, up to the closing brace, and what follows it. -/
def bracedNumbers : List Token → Option (List Nat × List Token)
  | .num n :: .closeB :: ts => some ([n], ts)
  | .num n :: .comma :: ts => (bracedNumbers ts).map fun r => (n :: r.1, r.2)
  | _ => none

/-- The operands of FRAME: the braced data, possibly none, a comma and the checksum (30_encoding.md R84). -/
def frameOperands : List Token → Option AsmLine
  | [.openB, .closeB, .comma, .num c] => some (.frame [] c)
  | .openB :: ts =>
    match bracedNumbers ts with
    | some (data, [.comma, .num c]) => some (.frame data c)
    | _ => none
  | _ => none

/-- The line of a mnemonic and its operands. -/
def lineOf (mnemonic : List Char) (ts : List Token) : Option AsmLine :=
  if mnemonic = ['I', 'D', 'L', 'E'] then if ts = [] then some .idle else none
  else if mnemonic = ['R', 'E', 'S', 'E', 'T'] then if ts = [] then some .reset else none
  else if mnemonic = ['S', 'T', 'X'] then if ts = [] then some .stx else none
  else if mnemonic = ['E', 'T', 'X'] then if ts = [] then some .etx else none
  else if mnemonic = ['B', 'Y', 'T', 'E', 'S'] then (numberList ts).map .bytes
  else if mnemonic = ['F', 'R', 'A', 'M', 'E'] then frameOperands ts
  else
    match ts with
    | [.num n] =>
      if mnemonic = ['B', 'Y', 'T', 'E'] then some (.byte n)
      else if mnemonic = ['W', 'A', 'I', 'T'] then some (.wait n)
      else none
    | _ => none

/-- Why a text is no command stream. -/
inductive AsmError where
  /-- the text of a line has not the form of 30_encoding.md R83 or R84 -/
  | unreadable
  /-- a number of a line breaks a bound of 30_encoding.md R83 or R84 -/
  | outOfRange
deriving DecidableEq, Repr

/-- The line of a text, none for a text with nothing before its comment. -/
def parseLine (text : List Char) : Except AsmError (Option AsmLine) :=
  match tokens [] text with
  | [] => .ok none
  | .word m :: ts =>
    match lineOf m ts with
    | some l => if l.wf then .ok (some l) else .error .outOfRange
    | none => .error .unreadable
  | _ => .error .unreadable

/-- The command words of a text given line by line (30_encoding.md R83: one command per line). -/
def assembleText : List (List Char) → Except AsmError (List CmdWord)
  | [] => .ok []
  | text :: more =>
    match parseLine text, assembleText more with
    | .ok none, .ok ws => .ok ws
    | .ok (some l), .ok ws => .ok (encodeStream l.expand ++ ws)
    | .error e, _ => .error e
    | .ok _, .error e => .error e

end Sys2Proof.Machine
end

