-- ==== Sys2Proof/Machine/Observe.lean ====
section
/-! DEFINITION. The output ports and the frame (30_encoding.md R70, R78, R79; 42_observation.md). None has a side effect. -/

namespace Sys2Proof.Machine

/-- The code on `phase_o` (30_encoding.md R78; 42_observation.md R140). -/
def Phase.code : Phase → BitVec 3
  | .awaitingStart => 0
  | .readingLength => 1
  | .readingPayload => 2
  | .readingChecksum => 3
  | .awaitingEnd => 4
  | .complete => 5
  | .error => 6

/-- The code on `res_o` (30_encoding.md R79). -/
def Result.code : Result → BitVec 2
  | .none => 0
  | .cont => 1
  | .frameReady => 2
  | .frameRejected => 3

/-- The code on `reason_o` (30_encoding.md R79). -/
def Reason.code : Reason → BitVec 2
  | .noReason => 0
  | .payloadTooLarge => 1
  | .unexpectedByte => 2

/-- The payload read port at an index (42_observation.md R143): the stored byte below the cursor, and a free value
anywhere else, every index at or beyond CAP included. -/
def State.readPort (s : State) (i : Nat) : Byte :=
  if i < s.cursor.toNat ∧ i < s.cap.val then s.memRead i else Config.staleByte s.edge i

/-- The output pins (30_encoding.md R70). -/
structure Outputs where
  phaseO : BitVec 3
  resO : BitVec 2
  reasonO : BitVec 2
  frameValidO : BitVec 1
  lenO : Byte
  cursorO : Byte
  chkO : Byte
  rdDataO : Byte
deriving DecidableEq, Repr

/-- What the output pins show after the latest edge while `rd_addr` holds `rdAddr` (42_observation.md R140 to R144). -/
def State.outputs (s : State) (rdAddr : Byte) : Outputs where
  phaseO := s.phase.code
  resO := s.res.code
  reasonO := s.reason.code
  frameValidO := BitVec.ofBool s.frameValid
  lenO := s.declLen
  cursorO := s.cursor
  chkO := s.chk
  rdDataO := s.readPort rdAddr.toNat

/-- A frame as the consumer receives it (41_accept_byte.md R123). -/
structure Frame where
  length : Byte
  payload : List Byte
  checksum : Byte
deriving DecidableEq, Repr

/-- The frame offered on the outputs while the phase is Complete, and no frame otherwise (42_observation.md R142;
41_accept_byte.md R123). -/
def State.frameOut (s : State) : Option Frame :=
  if s.frameValid then
    some { length := s.declLen, payload := (List.range s.declLen.toNat).map s.readPort, checksum := s.chk }
  else none

/-- What a run records of one edge (70_reset_and_hazards.md R190): the result, the phase after the edge, and the frame
where the result is FrameReady. -/
structure Observation where
  res : Result
  reason : Reason
  phase : Phase
  frame : Option Frame
deriving DecidableEq, Repr

/-- The observation of the edge that led to this state (70_reset_and_hazards.md R190). -/
def State.observation (s : State) : Observation where
  res := s.res
  reason := s.reason
  phase := s.phase
  frame := if s.res = .frameReady then s.frameOut else none

/-- The edges a frame consumer counts as events (42_observation.md R144). -/
def State.isEvent (s : State) : Bool :=
  match s.res with
  | .frameReady | .frameRejected => true
  | .none | .cont => false

end Sys2Proof.Machine
end

