-- ==== Sys2Proof/Machine/Run.lean ====
section
/-! DEFINITION. Runs and their observation (70_reset_and_hazards.md R190). -/

namespace Sys2Proof.Machine

/-- The observations of the next `k` edges and the state after them, none if an edge is refused. -/
def observe : Nat → State → Option (List Observation × State)
  | 0, s => some ([], s)
  | k + 1, s =>
    match step s with
    | .next t => (observe k t).map fun r => (t.observation :: r.1, r.2)
    | .fault _ => none
    | .refused _ => none

/-- Command words as the byte source presents them, one per edge with `rst = 0` (60_exceptions.md R166). -/
def presented (ws : List CmdWord) : List EdgeInput := ws.map fun w => ⟨false, w⟩

/-- The word of `BYTE b`, which is `0x100 + b` (30_encoding.md, section 5). -/
def byteWord (b : Byte) : CmdWord := 0x100#10 + b.setWidth 10

/-- Bytes as the byte source presents them: one BYTE command each, in order (20_memory.md R57). -/
def presentedBytes (bs : List Byte) : List EdgeInput := presented (bs.map byteWord)

/-- A frame on the wire (30_encoding.md R80): STX, the length, the data, the checksum byte, ETX. -/
def wireFrame (data : List Byte) (chk : Byte) : List Byte :=
  0x02 :: BitVec.ofNat 8 data.length :: (data ++ [chk, 0x03])

/-- An instance right after its hard reset, with the words the byte source will present (70_reset_and_hazards.md R190). -/
def startRun (cap : Fin 257) (ws : List CmdWord) : State := { State.resetFor cap with inputs := presented ws }

/-- A run: a hard reset, then one word per edge (70_reset_and_hazards.md R190). -/
def runWords (cap : Fin 257) (ws : List CmdWord) : Option (List Observation × State) :=
  observe ws.length (startRun cap ws)

end Sys2Proof.Machine
end

