-- ==== Sys2Proof/Safety.lean ====
section
/-! DEFINITION. What holds of every state a run reaches (10_state.md R29), and what a safe run is. -/

namespace Sys2Proof.Machine

/-- An input the environment may present: at an edge with `rst = 0` the word is not reserved (60_exceptions.md R166;
30_encoding.md R75). -/
def EdgeInput.legal (e : EdgeInput) : Bool := e.rst || CmdWord.legal e.cmd

/-- The buffer is stored properly: canonical, and no byte outside the indices `0 .. CAP-1` (20_memory.md R50). -/
abbrev State.storageOk (s : State) : Prop := s.buf.wf ∧ ∀ c ∈ s.buf, c.1 < s.cap.val

/-- Every payload byte of this frame is stored (10_state.md R29, last column). -/
abbrev State.payloadStored (s : State) : Prop :=
  ∀ i ∈ List.range s.cursor.toNat, (s.buf.read i).isSome

/-- The row of the table of 10_state.md R29 for the current phase. The two Error rows are told apart by the reason at
the edge of the rejection and by the capacity ever after. -/
def State.row (s : State) : Prop :=
  match s.phase with
  | .awaitingStart => s.declLen = 0 ∧ s.cursor = 0 ∧ s.chk = 0
  | .readingLength => s.declLen = 0 ∧ s.cursor = 0 ∧ s.chk = 0
  | .readingPayload =>
    s.cursor.toNat < s.declLen.toNat ∧ (s.cap.val < s.declLen.toNat → s.cursor = 0) ∧ s.chk = 0
  | .readingChecksum => s.declLen.toNat ≤ s.cap.val ∧ s.cursor = s.declLen ∧ s.chk = 0
  | .awaitingEnd => s.declLen.toNat ≤ s.cap.val ∧ s.cursor = s.declLen
  | .complete => s.declLen.toNat ≤ s.cap.val ∧ s.cursor = s.declLen
  | .error =>
    (s.cap.val < s.declLen.toNat ∧ s.cursor = 0 ∧ s.chk = 0 ∧ s.reason ≠ .unexpectedByte) ∨
      (s.declLen.toNat ≤ s.cap.val ∧ s.cursor = s.declLen ∧ s.reason ≠ .payloadTooLarge)

/-- The result register agrees with itself and with the phase: a reason exactly with FrameRejected (10_state.md R27),
FrameReady only in Complete, FrameRejected only in Error, Continue in no terminal phase (41_accept_byte.md R122). -/
def State.resultOk (s : State) : Prop :=
  match s.res with
  | .none => s.reason = .noReason
  | .cont => s.reason = .noReason ∧ s.phase ≠ .complete ∧ s.phase ≠ .error
  | .frameReady => s.reason = .noReason ∧ s.phase = .complete
  | .frameRejected => s.reason ≠ .noReason ∧ s.phase = .error

/-- The invariant of 10_state.md R29, with the forms of the buffer and of the result register. -/
structure State.Inv (s : State) : Prop where
  storage : s.storageOk
  stored : s.payloadStored
  row : s.row
  result : s.resultOk

/-- The states a legal environment can drive an instance to from its reset state: every state met satisfies `Inv`, and
every coming input is legal. -/
structure State.Safe (s : State) : Prop where
  inv : s.Inv
  legal : ∀ e ∈ s.inputs, e.legal = true

end Sys2Proof.Machine
end

