-- ==== Sys2Proof/Certificates/Slice0/Obligations.lean ====
section
/-! DEFINITION. The statements for the provers, in the order of OBLIGATIONS.json. -/

open Sys2Proof Sys2Proof.Machine

/-! ### Encoding (30_encoding.md) -/

/-- Words written out bit by bit from 30_encoding.md R72 to R75. -/
def Obligations.WrittenOutWordsDecode : Prop :=
  decode 0b0000000000#10 = .ok (.idle 0x00) ∧ decode 0b0010101011#10 = .ok (.idle 0xAB) ∧
  decode 0b0100000010#10 = .ok (.byte 0x02) ∧ decode 0b0111111111#10 = .ok (.byte 0xFF) ∧
  decode 0b1000000000#10 = .ok (.reset 0x00) ∧ decode 0b1011111111#10 = .ok (.reset 0xFF) ∧
  decode 0b1100000000#10 = .error (.reservedOp 0x00) ∧ decode 0b1111111111#10 = .error (.reservedOp 0xFF)

/-- Decoding the words of any commands gives the commands back, and a stream decodes exactly when it holds no reserved word
(30_encoding.md R71 to R75, R77; 40_reset_idle.md R103). The second clause, that the words of a decoded stream are the
encoding of what it decodes to, is the MODEL'S CHOICE (log entry 9): IDLE and RESET carry the data bits that the hardware
ignores (R76), while the spec's own assembler writes those bits as 0 (R76, R83; `Obligations.OperandIsTheLowByte`). -/
def Obligations.StreamsEncodeAndDecode : Prop :=
  (∀ prog : List Instr, decodeStream (encodeStream prog) = .ok prog) ∧
  (∀ (ws : List CmdWord) (prog : List Instr), decodeStream ws = .ok prog → encodeStream prog = ws) ∧
  (∀ ws : List CmdWord, (∃ prog, decodeStream ws = .ok prog) ↔ ∀ w ∈ ws, w.toNat < 0x300)

/-- The decoder agrees with the match and mask of every row, and refuses the words of op 11 (30_encoding.md R72 to R75, R77). -/
def Obligations.DecodeFollowsMatchAndMask : Prop :=
  ∀ w : CmdWord,
    (w &&& 0x300#10 = 0x000#10 → decode w = .ok (.idle (w.setWidth 8))) ∧
    (w &&& 0x300#10 = 0x100#10 → decode w = .ok (.byte (w.setWidth 8))) ∧
    (w &&& 0x300#10 = 0x200#10 → decode w = .ok (.reset (w.setWidth 8))) ∧
    (w &&& 0x300#10 = 0x300#10 → decode w = .error (.reservedOp (w.setWidth 8)))

/-- The one operand is `cmd[7:0]`, taken as it is; it does not matter to IDLE and RESET, and an assembler writes it as 0
there (30_encoding.md R76). -/
def Obligations.OperandIsTheLowByte : Prop :=
  (∀ b : Byte, decode (byteWord b) = .ok (.byte b)) ∧
  (∀ (d : Byte) (s : State), exec (.idle d) s = exec (.idle 0) s ∧ exec (.reset d) s = exec (.reset 0) s) ∧
  assemble [.idle] = some [0x000#10] ∧ assemble [.reset] = some [0x200#10]

/-- The expansions and the bounds of the pseudo-instructions (30_encoding.md R84). -/
def Obligations.PseudoInstructionsExpand : Prop :=
  AsmLine.expand .stx = [.byte 0x02] ∧ AsmLine.expand .etx = [.byte 0x03] ∧
  (∀ bs : List Byte, AsmLine.expand (.bytes (bs.map BitVec.toNat)) = bs.map Instr.byte) ∧
  (∀ (data : List Byte) (c : Byte),
    AsmLine.expand (.frame (data.map BitVec.toNat) c.toNat) =
      [.byte 0x02, .byte (BitVec.ofNat 8 data.length)] ++ data.map Instr.byte ++ [.byte c, .byte 0x03]) ∧
  (∀ c : Byte, AsmLine.expand (.frame [] c.toNat) = [.byte 0x02, .byte 0x00, .byte c, .byte 0x03]) ∧
  (∀ k : Nat, AsmLine.expand (.wait k) = List.replicate k (.idle 0)) ∧
  (∀ (data : List Byte) (c : Byte), AsmLine.wf (.frame (data.map BitVec.toNat) c.toNat) = true ↔ data.length ≤ 255) ∧
  (∀ k : Nat, AsmLine.wf (.wait k) = true ↔ 1 ≤ k)

/-- What the assembler writes is a stream of legal words that decodes to the expansions of its lines, in order
(30_encoding.md R83, R84). -/
def Obligations.AssembledStreamsDecode : Prop :=
  ∀ (ls : List AsmLine) (ws : List CmdWord), assemble ls = some ws →
    decodeStream ws = .ok (ls.flatMap AsmLine.expand) ∧ (∀ w ∈ ws, w.legal = true) ∧ (∀ l ∈ ls, l.wf = true)

/-! ### The step -/

/-- When the word at the next edge decodes to `i` and `rst = 0`, the step is `exec i` in the state whose input has been
taken and whose edge has been counted. The count and the inputs are the model's own fields (log entries 2 and 4). -/
def Obligations.StepPerformsDecodedCommand : Prop :=
  ∀ (s : State) (w : CmdWord) (rest : List EdgeInput) (i : Instr),
    s.inputs = ⟨false, w⟩ :: rest → decode w = .ok i →
    step s = exec i { s with inputs := rest, edge := s.edge + 1 }

/-- A hard reset ignores the command word, resets the six registers and leaves the buffer; its effect is that of the
RESET command (70_reset_and_hazards.md R180). -/
def Obligations.HardResetOverridesCommand : Prop :=
  ∀ (s : State) (w : CmdWord) (rest : List EdgeInput), s.inputs = ⟨true, w⟩ :: rest →
    step s = .next { s with
      phase := .awaitingStart, declLen := 0, cursor := 0, chk := 0, res := .none, reason := .noReason,
      inputs := rest, edge := s.edge + 1 } ∧
    step s = step { s with inputs := ⟨false, 0x200#10⟩ :: rest }

/-- A reserved word is refused at an edge with `rst = 0`, and ignored at an edge with `rst = 1`
(30_encoding.md R75; 40_reset_idle.md R103). -/
def Obligations.ReservedWordRefusedUnlessReset : Prop :=
  ∀ (s : State) (w : CmdWord) (rest : List EdgeInput), 0x300 ≤ w.toNat →
    (s.inputs = ⟨false, w⟩ :: rest → step s = .refused (.reservedCommand (w.setWidth 8))) ∧
    (s.inputs = ⟨true, w⟩ :: rest → step s = step { s with inputs := ⟨true, 0x000#10⟩ :: rest } ∧
      ∃ t, step s = .next t)

/-- Which refusals the step answers, and exactly when. A reserved word at an edge with `rst = 0` (30_encoding.md R75;
40_reset_idle.md R103); no input left, the MODEL'S CHOICE of log entry 2; a payload byte with the cursor at or past a length
within the capacity, the MODEL'S CHOICE of log entry 6 (20_memory.md R52; 93_implementation_defined.md U5), which no state
of the invariant gives. In every other case the step answers a next state. -/
def Obligations.StepRefusesExactlyWhen : Prop :=
  ∀ s : State,
    (step s = .refused .noInput ↔ s.inputs = []) ∧
    (∀ d : Byte, step s = .refused (.reservedCommand d) ↔
      ∃ w rest, s.inputs = ⟨false, w⟩ :: rest ∧ 0x300 ≤ w.toNat ∧ w.setWidth 8 = d) ∧
    (step s = .refused .payloadPastDeclared ↔
      (∃ b rest, s.inputs = ⟨false, byteWord b⟩ :: rest) ∧
        s.phase = .readingPayload ∧ s.declLen.toNat ≤ s.cap.val ∧ s.declLen.toNat ≤ s.cursor.toNat) ∧
    (s.Inv → step s ≠ .refused .payloadPastDeclared) ∧
    (step s ≠ .refused .noInput → (∀ d, step s ≠ .refused (.reservedCommand d)) →
      step s ≠ .refused .payloadPastDeclared → ∃ t, step s = .next t)

/-- From every state of the invariant, every edge a legal environment presents is performed (00_scope.md R12, R13;
70_reset_and_hazards.md R184). -/
def Obligations.LegalEdgesAlwaysComplete : Prop :=
  ∀ (s : State) (e : EdgeInput) (rest : List EdgeInput), s.Inv → s.inputs = e :: rest →
    (e.rst = true ∨ e.cmd.toNat < 0x300) → ∃ t, step s = .next t

/-- Every step takes one input, counts one edge and leaves the capacity (00_scope.md R10, R13; 70_reset_and_hazards.md
R182, R184). The three fields are the model's own. -/
def Obligations.StepTakesOneInput : Prop :=
  ∀ s t : State, step s = .next t →
    t.cap = s.cap ∧ t.edge = s.edge + 1 ∧ ∃ e, s.inputs = e :: t.inputs

/-- The model's reset state satisfies the invariant, at every capacity (10_state.md R29, R31). -/
def Obligations.ResetStateMeetsInvariant : Prop :=
  State.reset.Inv ∧ ∀ cap : Fin 257, (State.resetFor cap).Inv

/-- Every step keeps the invariant of 10_state.md R29. -/
def Obligations.StepKeepsFrameInvariant : Prop :=
  ∀ s t : State, s.Inv → step s = .next t → t.Inv

/-- From any state whose buffer is stored properly, one hard reset or one RESET command gives a state of the invariant
(10_state.md R29, R31; 70_reset_and_hazards.md R183). -/
def Obligations.AnyResetEstablishesInvariant : Prop :=
  ∀ (s : State) (e : EdgeInput) (rest : List EdgeInput), s.storageOk → s.inputs = e :: rest →
    (e.rst = true ∨ (0x200 ≤ e.cmd.toNat ∧ e.cmd.toNat < 0x300)) → ∃ t, step s = .next t ∧ t.Inv

/-- A state of the invariant with legal inputs runs to the end of its inputs, with one observation an edge
(70_reset_and_hazards.md R184, R190). -/
def Obligations.SafeStatesRunToTheEnd : Prop :=
  ∀ s : State, s.Safe → ∃ obs t, observe s.inputs.length s = some (obs, t) ∧
    obs.length = s.inputs.length ∧ t.inputs = [] ∧ t.cap = s.cap ∧ t.Safe

/-- What comes later changes nothing now (20_memory.md R57, R59): a step depends on the first input only, and a chunk of
words runs as it does alone, with the same observations, and leaves what follows it. The inputs are the model's own field
(log entry 2). -/
def Obligations.LaterInputsChangeNothing : Prop :=
  (∀ (s : State) (e : EdgeInput) (later other : List EdgeInput),
    (∀ t, step { s with inputs := e :: later } = .next t →
      t.inputs = later ∧ step { s with inputs := e :: other } = .next { t with inputs := other }) ∧
    (∀ r, step { s with inputs := e :: later } = .refused r → step { s with inputs := e :: other } = .refused r)) ∧
  (∀ (s : State) (ws more : List CmdWord) (rest : List EdgeInput),
    observe ws.length { s with inputs := presented (ws ++ more) ++ rest } =
      (observe ws.length { s with inputs := presented ws }).map fun r =>
        (r.1, { r.2 with inputs := presented more ++ rest }))

/-! ### RESET and IDLE (40_reset_idle.md) -/

/-- The values after reset (10_state.md R31): of the reset state, and after a RESET command and a hard reset, which leave
every buffer element. R31 says of the buffer at power-on only that it is ANY: that an element then holds the free value
`Config.powerOnByte i`, whatever it is, is the MODEL'S CHOICE (log entry 5). The default capacity is that of 00_scope.md
R10. -/
def Obligations.ResetValues : Prop :=
  State.reset = State.resetFor 256 ∧
  (∀ cap : Fin 257, (State.resetFor cap).phase = .awaitingStart ∧ (State.resetFor cap).declLen = 0 ∧
    (State.resetFor cap).cursor = 0 ∧ (State.resetFor cap).chk = 0 ∧ (State.resetFor cap).res = .none ∧
    (State.resetFor cap).reason = .noReason ∧ ∀ i, (State.resetFor cap).memRead i = Config.powerOnByte i) ∧
  (∀ (d : Byte) (s : State), ∃ t, exec (.reset d) s = .next t ∧ hardReset s = .next t ∧
    t.phase = .awaitingStart ∧ t.declLen = 0 ∧ t.cursor = 0 ∧ t.chk = 0 ∧ t.res = .none ∧ t.reason = .noReason ∧
    ∀ i, t.memRead i = s.memRead i)

/-- RESET, in every phase (40_reset_idle.md R100, R101). -/
def Obligations.ResetCommandEffect : Prop :=
  ∀ (d : Byte) (s : State), exec (.reset d) s = .next { s with
    phase := .awaitingStart, declLen := 0, cursor := 0, chk := 0, res := .none, reason := .noReason }

/-- RESET is total and idempotent (40_reset_idle.md R104). -/
def Obligations.ResetIsIdempotent : Prop :=
  ∀ (d e : Byte) (s : State), ∃ t, exec (.reset d) s = .next t ∧ exec (.reset e) t = .next t ∧
    t.phase = .awaitingStart ∧ t.declLen = 0 ∧ t.cursor = 0

/-- IDLE writes the result register and nothing else (40_reset_idle.md R102). -/
def Obligations.IdleOnlyClearsResult : Prop :=
  ∀ (d : Byte) (s : State), exec (.idle d) s = .next { s with res := .none, reason := .noReason }

/-- Any number of IDLE edges leaves every register but the result register (40_reset_idle.md R102; 60_exceptions.md R161,
R165). -/
def Obligations.IdleEdgesHoldState : Prop :=
  ∀ (s : State) (ws : List CmdWord) (rest : List EdgeInput), ws ≠ [] → (∀ w ∈ ws, w.toNat < 0x100) →
    s.inputs = presented ws ++ rest →
    ∃ obs, observe ws.length s = some (obs, { s with
        res := .none, reason := .noReason, inputs := rest, edge := s.edge + ws.length }) ∧
      ∀ o ∈ obs, o.res = .none ∧ o.reason = .noReason ∧ o.phase = s.phase ∧ o.frame = none

/-- The hard reset, RESET and the implicit reset agree: a byte in a terminal phase does what it does after a RESET
(70_reset_and_hazards.md R183). -/
def Obligations.ThreeResetsAgree : Prop :=
  ∀ (s : State) (d b : Byte), ∃ t, exec (.reset d) s = .next t ∧ hardReset s = .next t ∧
    t.phase = .awaitingStart ∧ t.declLen = 0 ∧ t.cursor = 0 ∧ t.chk = 0 ∧
    (s.phase = .complete ∨ s.phase = .error → exec (.byte b) s = exec (.byte b) t)

/-! ### BYTE, row by row (41_accept_byte.md) -/

/-- AwaitingStart: STX starts a frame, any other byte is ignored (41_accept_byte.md R112, R113). -/
def Obligations.StartByteOrNoise : Prop :=
  ∀ (b : Byte) (s : State), s.phase = .awaitingStart →
    (b = 0x02 → exec (.byte b) s = .next { s with phase := .readingLength, res := .cont, reason := .noReason }) ∧
    (b ≠ 0x02 → exec (.byte b) s = .next { s with res := .cont, reason := .noReason })

/-- ReadingLength: every length is taken, and zero skips the payload (41_accept_byte.md R114, R115). -/
def Obligations.LengthByteTaken : Prop :=
  ∀ (b : Byte) (s : State), s.phase = .readingLength →
    (b ≠ 0x00 → exec (.byte b) s = .next { s with
      declLen := b, cursor := 0, phase := .readingPayload, res := .cont, reason := .noReason }) ∧
    (b = 0x00 → exec (.byte b) s = .next { s with
      declLen := 0, cursor := 0, phase := .readingChecksum, res := .cont, reason := .noReason })

/-- ReadingPayload within the capacity: the byte is stored at the cursor, inside the buffer, the cursor advances without
wrapping, and the payload ends when it reaches the declared length; nothing else changes (41_accept_byte.md R116). The
premise `cursor < declLen` holds in every state of the invariant. -/
def Obligations.PayloadByteAppended : Prop :=
  ∀ (b : Byte) (s : State), s.phase = .readingPayload → s.declLen.toNat ≤ s.cap.val →
    s.cursor.toNat < s.declLen.toNat →
    ∃ t, exec (.byte b) s = .next t ∧ s.cursor.toNat < s.cap.val ∧
      (∀ i, t.buf.read i = if i = s.cursor.toNat then some b else s.buf.read i) ∧
      t.cursor.toNat = s.cursor.toNat + 1 ∧
      (t.cursor = s.declLen → t.phase = .readingChecksum) ∧ (t.cursor ≠ s.declLen → t.phase = .readingPayload) ∧
      t.res = .cont ∧ t.reason = .noReason ∧ t.declLen = s.declLen ∧ t.chk = s.chk ∧
      t.cap = s.cap ∧ t.inputs = s.inputs ∧ t.edge = s.edge

/-- ReadingPayload beyond the capacity: rejection before any write, whatever the cursor, and never at a capacity of 255
or more (41_accept_byte.md R117, R121). -/
def Obligations.PayloadTooLargeRejected : Prop :=
  (∀ (b : Byte) (s : State), s.phase = .readingPayload → s.cap.val < s.declLen.toNat →
    exec (.byte b) s = .next { s with phase := .error, res := .frameRejected, reason := .payloadTooLarge }) ∧
  (∀ s : State, 255 ≤ s.cap.val → ¬ s.cap.val < s.declLen.toNat)

/-- Where BYTE stops: in ReadingPayload with the cursor at or past a length within the capacity, where no payload write is
performed (20_memory.md R52) and no reachable state lies. The refusal is the model's choice (log entry 6;
93_implementation_defined.md U5). Everywhere else BYTE answers a next state. -/
def Obligations.ByteRefusesOnlyPastDeclared : Prop :=
  ∀ (b : Byte) (s : State),
    (s.phase = .readingPayload ∧ s.declLen.toNat ≤ s.cap.val ∧ s.declLen.toNat ≤ s.cursor.toNat →
      exec (.byte b) s = .refused .payloadPastDeclared) ∧
    (¬(s.phase = .readingPayload ∧ s.declLen.toNat ≤ s.cap.val ∧ s.declLen.toNat ≤ s.cursor.toNat) →
      ∃ t, exec (.byte b) s = .next t)

/-- ReadingChecksum: the byte is captured, whatever it is (41_accept_byte.md R118). -/
def Obligations.ChecksumByteCaptured : Prop :=
  ∀ (b : Byte) (s : State), s.phase = .readingChecksum →
    exec (.byte b) s = .next { s with chk := b, phase := .awaitingEnd, res := .cont, reason := .noReason }

/-- AwaitingEnd: ETX completes the frame, any other byte rejects it (41_accept_byte.md R119, R120). In the states of the
invariant, where the cursor is at a length within the capacity, the frame of R123 is then on the outputs. -/
def Obligations.EndByteDecidesFrame : Prop :=
  ∀ (b : Byte) (s : State), s.phase = .awaitingEnd →
    (b = 0x03 → exec (.byte b) s = .next { s with phase := .complete, res := .frameReady, reason := .noReason }) ∧
    (b ≠ 0x03 → exec (.byte b) s = .next { s with
      phase := .error, res := .frameRejected, reason := .unexpectedByte }) ∧
    (b = 0x03 → s.cursor = s.declLen → s.declLen.toNat ≤ s.cap.val → ∃ t, exec (.byte b) s = .next t ∧
      t.frameOut = some {
        length := s.declLen, payload := (List.range s.declLen.toNat).map s.memRead, checksum := s.chk })

/-- A terminal phase: the implicit reset, then the byte as the first of a new frame (41_accept_byte.md R111). -/
def Obligations.TerminalPhaseRestarts : Prop :=
  ∀ (b : Byte) (s : State), s.phase = .complete ∨ s.phase = .error →
    exec (.byte b) s = .next { s with
      phase := if b = 0x02 then .readingLength else .awaitingStart,
      declLen := 0, cursor := 0, chk := 0, res := .cont, reason := .noReason }

/-- The complete next-state table at the pins (41_accept_byte.md R130): the phase and the result after an edge that
presents `0x100 + b`. The premise on ReadingPayload holds in every state of the invariant. -/
def Obligations.ControlTableAtThePins : Prop :=
  ∀ (s : State) (b : Byte) (rest : List EdgeInput), s.inputs = ⟨false, byteWord b⟩ :: rest →
    (s.phase = .readingPayload → s.cursor.toNat < s.declLen.toNat) →
    ∃ t, step s = .next t ∧ (t.phase, t.res, t.reason) =
      (match s.phase with
        | .awaitingStart => if b = 0x02 then (.readingLength, .cont, .noReason) else (.awaitingStart, .cont, .noReason)
        | .readingLength =>
          if b = 0x00 then (.readingChecksum, .cont, .noReason) else (.readingPayload, .cont, .noReason)
        | .readingPayload =>
          if s.cap.val < s.declLen.toNat then (.error, .frameRejected, .payloadTooLarge)
          else if s.cursor.toNat + 1 < s.declLen.toNat then (.readingPayload, .cont, .noReason)
          else (.readingChecksum, .cont, .noReason)
        | .readingChecksum => (.awaitingEnd, .cont, .noReason)
        | .awaitingEnd =>
          if b = 0x03 then (.complete, .frameReady, .noReason) else (.error, .frameRejected, .unexpectedByte)
        | .complete => if b = 0x02 then (.readingLength, .cont, .noReason) else (.awaitingStart, .cont, .noReason)
        | .error => if b = 0x02 then (.readingLength, .cont, .noReason) else (.awaitingStart, .cont, .noReason))

/-! ### Results, rejections and the whole machine -/

/-- Every BYTE writes exactly one result, each from its rows only, and the byte after an outcome reports none
(41_accept_byte.md R122). -/
def Obligations.OneResultPerByte : Prop :=
  ∀ (b : Byte) (s t : State), exec (.byte b) s = .next t →
    (t.res = .frameReady ↔ s.phase = .awaitingEnd ∧ b = 0x03) ∧
    (t.res = .frameRejected ∧ t.reason = .payloadTooLarge ↔
      s.phase = .readingPayload ∧ s.cap.val < s.declLen.toNat) ∧
    (t.res = .frameRejected ∧ t.reason = .unexpectedByte ↔ s.phase = .awaitingEnd ∧ b ≠ 0x03) ∧
    (t.res = .cont ↔ ¬ (s.phase = .awaitingEnd ∨ (s.phase = .readingPayload ∧ s.cap.val < s.declLen.toNat))) ∧
    (t.res ≠ .cont → ∀ c, ∃ u, exec (.byte c) t = .next u ∧ u.res = .cont)

/-- The result register after every edge (10_state.md R27): a reason exactly with FrameRejected; None after IDLE, RESET
and hard reset; one of the other three after BYTE; and its reset value. -/
def Obligations.ResultRegisterAfterEveryEdge : Prop :=
  (∀ (s t : State) (e : EdgeInput) (rest : List EdgeInput), s.inputs = e :: rest → step s = .next t →
    (t.res = .frameRejected ↔ t.reason = .payloadTooLarge ∨ t.reason = .unexpectedByte) ∧
    (t.res ≠ .frameRejected ↔ t.reason = .noReason) ∧
    (e.rst = true ∨ e.cmd.toNat < 0x100 ∨ 0x200 ≤ e.cmd.toNat → t.res = .none) ∧
    (e.rst = false → 0x100 ≤ e.cmd.toNat → e.cmd.toNat < 0x200 →
      t.res = .cont ∨ t.res = .frameReady ∨ t.res = .frameRejected)) ∧
  State.reset.res = .none ∧ State.reset.reason = .noReason

/-- A rejection is the outcome of one BYTE and changes the phase and the result register only (60_exceptions.md R150). -/
def Obligations.RejectionChangesNothingElse : Prop :=
  ∀ (i : Instr) (s t : State), exec i s = .next t → t.res = .frameRejected →
    (∃ b, i = .byte b) ∧ t.reason ≠ .noReason ∧
    t = { s with phase := .error, res := .frameRejected, reason := t.reason }

/-- A terminal phase is left only by BYTE, RESET or a hard reset, each of which leaves it, and a byte there rejects
nothing (60_exceptions.md R158). -/
def Obligations.TerminalPhaseLeftOnlyBy : Prop :=
  ∀ (s : State) (e : EdgeInput) (rest : List EdgeInput), s.phase = .complete ∨ s.phase = .error →
    s.inputs = e :: rest → (e.rst = true ∨ e.cmd.toNat < 0x300) →
    ∃ t, step s = .next t ∧
      (e.rst = false ∧ e.cmd.toNat < 0x100 → t.phase = s.phase) ∧
      (e.rst = true ∨ 0x200 ≤ e.cmd.toNat → t.phase = .awaitingStart) ∧
      (e.rst = false ∧ 0x100 ≤ e.cmd.toNat ∧ e.cmd.toNat < 0x200 →
        t.phase = .awaitingStart ∨ t.phase = .readingLength) ∧
      t.res ≠ .frameRejected

/-- Complete is entered only by ETX in AwaitingEnd, with FrameReady (41_accept_byte.md R119, R122, R130). -/
def Obligations.CompleteEnteredOnlyByEtx : Prop :=
  ∀ s t : State, step s = .next t → t.phase = .complete → s.phase ≠ .complete →
    s.phase = .awaitingEnd ∧ s.inputs = ⟨false, byteWord 0x03⟩ :: t.inputs ∧ t.res = .frameReady

/-- The buffer changes only by a payload byte within the capacity, at the cursor, inside the buffer (20_memory.md R52). -/
def Obligations.OnlyPayloadBytesWriteBuffer : Prop :=
  ∀ s t : State, step s = .next t →
    (∀ i, t.buf.read i = s.buf.read i) ∨
    (∃ b, s.inputs = ⟨false, byteWord b⟩ :: t.inputs ∧ s.phase = .readingPayload ∧
      s.declLen.toNat ≤ s.cap.val ∧ s.cursor.toNat < s.declLen.toNat ∧ s.cursor.toNat < s.cap.val ∧
      ∀ i, t.buf.read i = if i = s.cursor.toNat then some b else s.buf.read i)

/-- Stale bytes steer nothing: two states that differ only in bytes at or beyond the cursor take the same step and still
differ only there (20_memory.md R53; 10_state.md R26). -/
def Obligations.StaleBytesSteerNothing : Prop :=
  ∀ (s : State) (m : Memory), (∀ i, i < s.cursor.toNat → m.read i = s.buf.read i) →
    (∀ t, step s = .next t → ∃ m', step { s with buf := m } = .next { t with buf := m' } ∧
      ∀ i, i < t.cursor.toNat → m'.read i = t.buf.read i) ∧
    (∀ r, step s = .refused r → step { s with buf := m } = .refused r)

/-- A payload byte is data: its value decides nothing but the stored element (20_memory.md R62; 30_encoding.md R81). -/
def Obligations.PayloadValueSteersNothing : Prop :=
  ∀ (b c : Byte) (s t : State), s.phase = .readingPayload → exec (.byte b) s = .next t →
    ∃ m, exec (.byte c) s = .next { t with buf := m } ∧ ∀ i, i ≠ s.cursor.toNat → m.read i = t.buf.read i

/-- The checksum is never compared: its value changes no command's effect on anything else, and a frame is accepted
whatever its CHK byte (41_accept_byte.md R124). -/
def Obligations.ChecksumSteersNothing : Prop :=
  (∀ (i : Instr) (s t : State) (k : Byte), exec i s = .next t →
    ∃ k', exec i { s with chk := k } = .next { t with chk := k' }) ∧
  (∀ (c : Byte) (s : State), s.phase = .readingChecksum →
    ∃ t u, exec (.byte c) s = .next t ∧ exec (.byte 0x03) t = .next u ∧
      u.phase = .complete ∧ u.res = .frameReady ∧ u.chk = c)

/-! ### Observation (42_observation.md) -/

/-- The codes of the outputs (30_encoding.md R78, R79): phase code 7 and reason code 3 are never produced. -/
def Obligations.OutputCodes : Prop :=
  [Phase.awaitingStart, .readingLength, .readingPayload, .readingChecksum, .awaitingEnd, .complete, .error].map Phase.code =
    [0, 1, 2, 3, 4, 5, 6] ∧
  [Result.none, .cont, .frameReady, .frameRejected].map Result.code = [0, 1, 2, 3] ∧
  [Reason.noReason, .payloadTooLarge, .unexpectedByte].map Reason.code = [0, 1, 2] ∧
  [Phase.awaitingStart, .readingLength, .readingPayload, .readingChecksum, .awaitingEnd, .complete, .error].map
    Phase.terminal = [false, false, false, false, false, true, true] ∧
  (∀ (s : State) (a : Byte), (s.outputs a).phaseO = s.phase.code ∧ (s.outputs a).resO = s.res.code ∧
    (s.outputs a).reasonO = s.reason.code ∧ (s.outputs a).phaseO ≠ 7 ∧ (s.outputs a).reasonO ≠ 3)

/-- The status outputs show the registers in every phase (42_observation.md R141). -/
def Obligations.StatusOutputsShowRegisters : Prop :=
  ∀ (s : State) (a : Byte),
    (s.outputs a).lenO = s.declLen ∧ (s.outputs a).cursorO = s.cursor ∧ (s.outputs a).chkO = s.chk

/-- The payload read port (42_observation.md R143): the stored byte below the cursor, the same in two states with the
same buffer and cursor. Of every other index R143 says only ANY: that the port then shows the free value
`Config.staleByte s.edge i`, whatever it is, is the MODEL'S CHOICE (log entry 4: DESIGN CHOICE, and DEDUCED for an index not
below CAP). -/
def Obligations.ReadPortShowsWrittenBytes : Prop :=
  (∀ (s : State) (a : Byte), s.Inv → a.toNat < s.cursor.toNat →
    s.buf.read a.toNat = some ((s.outputs a).rdDataO)) ∧
  (∀ (s t : State) (a : Byte), s.Inv → t.Inv → t.buf = s.buf → t.cursor = s.cursor → a.toNat < s.cursor.toNat →
    (t.outputs a).rdDataO = (s.outputs a).rdDataO) ∧
  (∀ (s : State) (a : Byte), s.cursor.toNat ≤ a.toNat ∨ s.cap.val ≤ a.toNat →
    (s.outputs a).rdDataO = Config.staleByte s.edge a.toNat)

/-- The frame is offered exactly while the phase is Complete, on the ports; IDLE keeps it, and every other edge withdraws
it (42_observation.md R142). -/
def Obligations.FrameOfferedWhileComplete : Prop :=
  (∀ (s : State) (a : Byte), (s.outputs a).frameValidO = 1 ↔ s.phase = .complete) ∧
  (∀ s : State, s.phase ≠ .complete → s.frameOut = none) ∧
  (∀ s : State, s.phase = .complete → ∃ f, s.frameOut = some f ∧
    (∀ a, f.length = (s.outputs a).lenO ∧ f.checksum = (s.outputs a).chkO) ∧
    f.payload.length = s.declLen.toNat ∧
    ∀ a : Byte, a.toNat < s.declLen.toNat → f.payload[a.toNat]? = some ((s.outputs a).rdDataO)) ∧
  (∀ (s : State) (e : EdgeInput) (rest : List EdgeInput), s.Inv → s.phase = .complete → s.inputs = e :: rest →
    (e.rst = true ∨ e.cmd.toNat < 0x300) → ∃ t, step s = .next t ∧
      (e.rst = false ∧ e.cmd.toNat < 0x100 → t.frameOut = s.frameOut) ∧
      (e.rst = true ∨ 0x100 ≤ e.cmd.toNat → t.frameOut = none ∧ t.declLen = 0 ∧ t.chk = 0))

/-! ### Frames (41_accept_byte.md, section 4) -/

/-- A well-formed frame within the capacity, from AwaitingStart or a terminal phase: `n + 4` edges, Continue at each but
the last, FrameReady there with the very bytes that were sent, and the phases of the document's table
(41_accept_byte.md R128). -/
def Obligations.WellFormedFrameDelivered : Prop :=
  ∀ (s : State) (data : List Byte) (c : Byte) (rest : List EdgeInput),
    s.phase = .awaitingStart ∨ s.phase = .complete ∨ s.phase = .error →
    data.length ≤ 255 → data.length ≤ s.cap.val → s.inputs = presentedBytes (wireFrame data c) ++ rest →
    ∃ obs t, observe (data.length + 4) s = some (obs, t) ∧ t.inputs = rest ∧
      obs.map (fun o => (o.res, o.reason)) =
        List.replicate (data.length + 3) (.cont, .noReason) ++ [(.frameReady, .noReason)] ∧
      obs.map Observation.phase =
        .readingLength :: (List.replicate data.length .readingPayload ++ [.readingChecksum, .awaitingEnd, .complete]) ∧
      obs.getLast?.map Observation.frame = some t.frameOut ∧
      t.phase = .complete ∧
      t.frameOut = some { length := BitVec.ofNat 8 data.length, payload := data, checksum := c }

/-- Within a frame the i-th DATA byte received is stored at index i (20_memory.md R54; 10_state.md R29, last column). -/
def Obligations.PayloadStoredInOrder : Prop :=
  ∀ (s : State) (n : Byte) (data : List Byte) (rest : List EdgeInput),
    s.phase = .awaitingStart ∨ s.phase = .complete ∨ s.phase = .error →
    0 < n.toNat → n.toNat ≤ s.cap.val → data.length ≤ n.toNat →
    s.inputs = presentedBytes (0x02 :: n :: data) ++ rest →
    ∃ obs t, observe (data.length + 2) s = some (obs, t) ∧ t.inputs = rest ∧
      t.declLen = n ∧ t.cursor.toNat = data.length ∧
      t.phase = (if data.length = n.toNat then .readingChecksum else .readingPayload) ∧
      ∀ i, i < data.length → t.buf.read i = data[i]?

/-- A length beyond the capacity is rejected on the byte after it, and nothing is stored (41_accept_byte.md R117, R127;
60_exceptions.md R151). -/
def Obligations.OversizedFrameRejected : Prop :=
  ∀ (s : State) (n b : Byte) (rest : List EdgeInput),
    s.phase = .awaitingStart ∨ s.phase = .complete ∨ s.phase = .error → s.cap.val < n.toNat →
    s.inputs = presentedBytes [0x02, n, b] ++ rest →
    ∃ obs t, observe 3 s = some (obs, t) ∧ t.inputs = rest ∧
      obs.map (fun o => (o.res, o.reason)) =
        [(.cont, .noReason), (.cont, .noReason), (.frameRejected, .payloadTooLarge)] ∧
      t.phase = .error ∧ t.declLen = n ∧ t.cursor = 0 ∧ t.buf = s.buf

/-- The byte that rejects a frame is consumed, STX too: the byte after it is the first of a new frame
(41_accept_byte.md R120, R127). -/
def Obligations.RejectingByteConsumed : Prop :=
  ∀ (s : State) (b c : Byte) (rest : List EdgeInput), s.phase = .awaitingEnd → b ≠ 0x03 →
    s.inputs = presentedBytes [b, c] ++ rest →
    ∃ obs t, observe 2 s = some (obs, t) ∧
      obs.map (fun o => (o.res, o.reason)) = [(.frameRejected, .unexpectedByte), (.cont, .noReason)] ∧
      t.phase = (if c = 0x02 then .readingLength else .awaitingStart) ∧ t.declLen = 0 ∧ t.cursor = 0 ∧ t.chk = 0

/-- Any noise before STX changes nothing but the result register (41_accept_byte.md R125). -/
def Obligations.LeadingNoiseDiscarded : Prop :=
  ∀ (s : State) (bs : List Byte) (rest : List EdgeInput), s.phase = .awaitingStart → bs ≠ [] →
    (∀ b ∈ bs, b ≠ 0x02) → s.inputs = presentedBytes bs ++ rest →
    ∃ obs, observe bs.length s = some (obs, { s with
        res := .cont, reason := .noReason, inputs := rest, edge := s.edge + bs.length }) ∧
      ∀ o ∈ obs, o.res = .cont ∧ o.reason = .noReason ∧ o.phase = .awaitingStart
end

