-- ==== Sys2Proof/Laws/Encoding.lean ====
section
/-! SUPPORT. The fields of a packed word, and what the decoder reads from it. -/

namespace Sys2Proof

@[simp] theorem opField_packWord (op : BitVec 2) (data : Byte) : opField (packWord op data) = op := by
  ext i h
  have h1 : 8 + i < 10 := by omega
  simp [opField, packWord, BitVec.getElem_extractLsb', h, h1]

@[simp] theorem dataField_packWord (op : BitVec 2) (data : Byte) : dataField (packWord op data) = data := by
  ext i h
  simp [dataField, packWord, BitVec.getElem_extractLsb', h]
  omega

/-- A word is its two fields. -/
@[simp] theorem packWord_fields (w : CmdWord) : packWord (opField w) (dataField w) = w := by
  ext i h
  by_cases h8 : i < 8
  · simp [packWord, opField, dataField, h, h8]
  · have : i ≤ 9 := by omega
    have : 8 + (i - 8) = i := by omega
    simp [packWord, opField, dataField, BitVec.getLsbD_eq_getElem, *]

/-- The op field is two bits. -/
theorem opField_cases (w : CmdWord) : opField w = 0 ∨ opField w = 1 ∨ opField w = 2 ∨ opField w = 3 := by
  generalize opField w = x
  revert x
  decide

/-- Everything the decoder can answer on a word. -/
theorem decode_cases (w : CmdWord) :
    (opField w = 0 ∧ decode w = .ok (.idle (dataField w))) ∨
    (opField w = 1 ∧ decode w = .ok (.byte (dataField w))) ∨
    (opField w = 2 ∧ decode w = .ok (.reset (dataField w))) ∨
    (opField w = 3 ∧ decode w = .error (.reservedOp (dataField w))) := by
  rcases opField_cases w with h | h | h | h <;> simp [decode, h]

end Sys2Proof
end

