-- ==== Sys2Proof/Laws/State.lean ====
section
/-! SUPPORT. One lemma per field per update of the state, so that no proof unfolds a record update. -/

namespace Sys2Proof.Machine

@[simp] theorem State.emit_phase (r : Result) (s : State) : (s.emit r).phase = s.phase := rfl
@[simp] theorem State.emit_declLen (r : Result) (s : State) : (s.emit r).declLen = s.declLen := rfl
@[simp] theorem State.emit_cursor (r : Result) (s : State) : (s.emit r).cursor = s.cursor := rfl
@[simp] theorem State.emit_chk (r : Result) (s : State) : (s.emit r).chk = s.chk := rfl
@[simp] theorem State.emit_buf (r : Result) (s : State) : (s.emit r).buf = s.buf := rfl
@[simp] theorem State.emit_res (r : Result) (s : State) : (s.emit r).res = r := rfl
@[simp] theorem State.emit_reason (r : Result) (s : State) : (s.emit r).reason = .noReason := rfl
@[simp] theorem State.emit_cap (r : Result) (s : State) : (s.emit r).cap = s.cap := rfl
@[simp] theorem State.emit_inputs (r : Result) (s : State) : (s.emit r).inputs = s.inputs := rfl
@[simp] theorem State.emit_edge (r : Result) (s : State) : (s.emit r).edge = s.edge := rfl

@[simp] theorem State.noResult_phase (s : State) : (s.noResult).phase = s.phase := rfl
@[simp] theorem State.noResult_declLen (s : State) : (s.noResult).declLen = s.declLen := rfl
@[simp] theorem State.noResult_cursor (s : State) : (s.noResult).cursor = s.cursor := rfl
@[simp] theorem State.noResult_chk (s : State) : (s.noResult).chk = s.chk := rfl
@[simp] theorem State.noResult_buf (s : State) : (s.noResult).buf = s.buf := rfl
@[simp] theorem State.noResult_res (s : State) : (s.noResult).res = .none := rfl
@[simp] theorem State.noResult_reason (s : State) : (s.noResult).reason = .noReason := rfl
@[simp] theorem State.noResult_cap (s : State) : (s.noResult).cap = s.cap := rfl
@[simp] theorem State.noResult_inputs (s : State) : (s.noResult).inputs = s.inputs := rfl
@[simp] theorem State.noResult_edge (s : State) : (s.noResult).edge = s.edge := rfl

@[simp] theorem State.resetCore_phase (s : State) : (s.resetCore).phase = .awaitingStart := rfl
@[simp] theorem State.resetCore_declLen (s : State) : (s.resetCore).declLen = 0 := rfl
@[simp] theorem State.resetCore_cursor (s : State) : (s.resetCore).cursor = 0 := rfl
@[simp] theorem State.resetCore_chk (s : State) : (s.resetCore).chk = 0 := rfl
@[simp] theorem State.resetCore_buf (s : State) : (s.resetCore).buf = s.buf := rfl
@[simp] theorem State.resetCore_res (s : State) : (s.resetCore).res = s.res := rfl
@[simp] theorem State.resetCore_reason (s : State) : (s.resetCore).reason = s.reason := rfl
@[simp] theorem State.resetCore_cap (s : State) : (s.resetCore).cap = s.cap := rfl
@[simp] theorem State.resetCore_inputs (s : State) : (s.resetCore).inputs = s.inputs := rfl
@[simp] theorem State.resetCore_edge (s : State) : (s.resetCore).edge = s.edge := rfl

@[simp] theorem State.fullReset_phase (s : State) : (s.fullReset).phase = .awaitingStart := rfl
@[simp] theorem State.fullReset_declLen (s : State) : (s.fullReset).declLen = 0 := rfl
@[simp] theorem State.fullReset_cursor (s : State) : (s.fullReset).cursor = 0 := rfl
@[simp] theorem State.fullReset_chk (s : State) : (s.fullReset).chk = 0 := rfl
@[simp] theorem State.fullReset_buf (s : State) : (s.fullReset).buf = s.buf := rfl
@[simp] theorem State.fullReset_res (s : State) : (s.fullReset).res = .none := rfl
@[simp] theorem State.fullReset_reason (s : State) : (s.fullReset).reason = .noReason := rfl
@[simp] theorem State.fullReset_cap (s : State) : (s.fullReset).cap = s.cap := rfl
@[simp] theorem State.fullReset_inputs (s : State) : (s.fullReset).inputs = s.inputs := rfl
@[simp] theorem State.fullReset_edge (s : State) : (s.fullReset).edge = s.edge := rfl

@[simp] theorem State.reject_phase (x : Reason) (s : State) : (s.reject x).phase = .error := rfl
@[simp] theorem State.reject_declLen (x : Reason) (s : State) : (s.reject x).declLen = s.declLen := rfl
@[simp] theorem State.reject_cursor (x : Reason) (s : State) : (s.reject x).cursor = s.cursor := rfl
@[simp] theorem State.reject_chk (x : Reason) (s : State) : (s.reject x).chk = s.chk := rfl
@[simp] theorem State.reject_buf (x : Reason) (s : State) : (s.reject x).buf = s.buf := rfl
@[simp] theorem State.reject_res (x : Reason) (s : State) : (s.reject x).res = .frameRejected := rfl
@[simp] theorem State.reject_reason (x : Reason) (s : State) : (s.reject x).reason = x := rfl
@[simp] theorem State.reject_cap (x : Reason) (s : State) : (s.reject x).cap = s.cap := rfl
@[simp] theorem State.reject_inputs (x : Reason) (s : State) : (s.reject x).inputs = s.inputs := rfl
@[simp] theorem State.reject_edge (x : Reason) (s : State) : (s.reject x).edge = s.edge := rfl

@[simp] theorem State.memWrite_phase (i : Nat) (v : Byte) (s : State) : (s.memWrite i v).phase = s.phase := rfl
@[simp] theorem State.memWrite_declLen (i : Nat) (v : Byte) (s : State) : (s.memWrite i v).declLen = s.declLen := rfl
@[simp] theorem State.memWrite_cursor (i : Nat) (v : Byte) (s : State) : (s.memWrite i v).cursor = s.cursor := rfl
@[simp] theorem State.memWrite_chk (i : Nat) (v : Byte) (s : State) : (s.memWrite i v).chk = s.chk := rfl
@[simp] theorem State.memWrite_buf (i : Nat) (v : Byte) (s : State) : (s.memWrite i v).buf = s.buf.write i v := rfl
@[simp] theorem State.memWrite_res (i : Nat) (v : Byte) (s : State) : (s.memWrite i v).res = s.res := rfl
@[simp] theorem State.memWrite_reason (i : Nat) (v : Byte) (s : State) : (s.memWrite i v).reason = s.reason := rfl
@[simp] theorem State.memWrite_cap (i : Nat) (v : Byte) (s : State) : (s.memWrite i v).cap = s.cap := rfl
@[simp] theorem State.memWrite_inputs (i : Nat) (v : Byte) (s : State) : (s.memWrite i v).inputs = s.inputs := rfl
@[simp] theorem State.memWrite_edge (i : Nat) (v : Byte) (s : State) : (s.memWrite i v).edge = s.edge := rfl

@[simp] theorem State.append_phase (b : Byte) (s : State) : (s.append b).phase = if s.cursor + 1 = s.declLen then .readingChecksum else .readingPayload := rfl
@[simp] theorem State.append_declLen (b : Byte) (s : State) : (s.append b).declLen = s.declLen := rfl
@[simp] theorem State.append_cursor (b : Byte) (s : State) : (s.append b).cursor = s.cursor + 1 := rfl
@[simp] theorem State.append_chk (b : Byte) (s : State) : (s.append b).chk = s.chk := rfl
@[simp] theorem State.append_buf (b : Byte) (s : State) : (s.append b).buf = s.buf.write s.cursor.toNat b := rfl
@[simp] theorem State.append_res (b : Byte) (s : State) : (s.append b).res = s.res := rfl
@[simp] theorem State.append_reason (b : Byte) (s : State) : (s.append b).reason = s.reason := rfl
@[simp] theorem State.append_cap (b : Byte) (s : State) : (s.append b).cap = s.cap := rfl
@[simp] theorem State.append_inputs (b : Byte) (s : State) : (s.append b).inputs = s.inputs := rfl
@[simp] theorem State.append_edge (b : Byte) (s : State) : (s.append b).edge = s.edge := rfl

@[simp] theorem State.beginEdge_phase (rest : List EdgeInput) (s : State) : (s.beginEdge rest).phase = s.phase := rfl
@[simp] theorem State.beginEdge_declLen (rest : List EdgeInput) (s : State) : (s.beginEdge rest).declLen = s.declLen := rfl
@[simp] theorem State.beginEdge_cursor (rest : List EdgeInput) (s : State) : (s.beginEdge rest).cursor = s.cursor := rfl
@[simp] theorem State.beginEdge_chk (rest : List EdgeInput) (s : State) : (s.beginEdge rest).chk = s.chk := rfl
@[simp] theorem State.beginEdge_buf (rest : List EdgeInput) (s : State) : (s.beginEdge rest).buf = s.buf := rfl
@[simp] theorem State.beginEdge_res (rest : List EdgeInput) (s : State) : (s.beginEdge rest).res = s.res := rfl
@[simp] theorem State.beginEdge_reason (rest : List EdgeInput) (s : State) : (s.beginEdge rest).reason = s.reason := rfl
@[simp] theorem State.beginEdge_cap (rest : List EdgeInput) (s : State) : (s.beginEdge rest).cap = s.cap := rfl
@[simp] theorem State.beginEdge_inputs (rest : List EdgeInput) (s : State) : (s.beginEdge rest).inputs = rest := rfl
@[simp] theorem State.beginEdge_edge (rest : List EdgeInput) (s : State) : (s.beginEdge rest).edge = s.edge + 1 := rfl

@[simp] theorem State.resetFor_phase (cap : Fin 257) : (State.resetFor cap).phase = .awaitingStart := rfl
@[simp] theorem State.resetFor_declLen (cap : Fin 257) : (State.resetFor cap).declLen = 0 := rfl
@[simp] theorem State.resetFor_cursor (cap : Fin 257) : (State.resetFor cap).cursor = 0 := rfl
@[simp] theorem State.resetFor_chk (cap : Fin 257) : (State.resetFor cap).chk = 0 := rfl
@[simp] theorem State.resetFor_buf (cap : Fin 257) : (State.resetFor cap).buf = [] := rfl
@[simp] theorem State.resetFor_res (cap : Fin 257) : (State.resetFor cap).res = .none := rfl
@[simp] theorem State.resetFor_reason (cap : Fin 257) : (State.resetFor cap).reason = .noReason := rfl
@[simp] theorem State.resetFor_cap (cap : Fin 257) : (State.resetFor cap).cap = cap := rfl
@[simp] theorem State.resetFor_inputs (cap : Fin 257) : (State.resetFor cap).inputs = [] := rfl
@[simp] theorem State.resetFor_edge (cap : Fin 257) : (State.resetFor cap).edge = 0 := rfl

/-- Presenting a word changes only the coming inputs. -/
@[simp] theorem State.presentNext_eq (w : CmdWord) (s : State) :
    s.presentNext w = { s with inputs := ⟨false, w⟩ :: s.inputs.tail } := rfl

/-- Taking an edge's input leaves what the read port depends on but the free values. -/
@[simp] theorem State.beginEdge_memRead (rest : List EdgeInput) (s : State) (i : Nat) :
    (s.beginEdge rest).memRead i = s.memRead i := rfl

end Sys2Proof.Machine
end

