-- ==== Sys2Proof/Laws/Exec.lean ====
section
/-! SUPPORT. What each command and the step can answer, said once. -/

namespace Sys2Proof.Machine

/-- Everything AwaitingStart can do with a byte. -/
theorem acceptStart_cases (b : Byte) (s : State) :
    (b = stx ∧ acceptStart b s = { s with phase := .readingLength, res := .cont, reason := .noReason }) ∨
    (b ≠ stx ∧ acceptStart b s = { s with res := .cont, reason := .noReason }) := by
  by_cases h : b = stx
  · exact .inl ⟨h, by simp [acceptStart, h, State.emit]⟩
  · exact .inr ⟨h, by simp [acceptStart, h, State.emit]⟩

/-- Everything ReadingLength can do with a byte. -/
theorem acceptLength_cases (b : Byte) (s : State) :
    (b = 0 ∧ acceptLength b s = { s with
      declLen := 0, cursor := 0, phase := .readingChecksum, res := .cont, reason := .noReason }) ∨
    (b ≠ 0 ∧ acceptLength b s = { s with
      declLen := b, cursor := 0, phase := .readingPayload, res := .cont, reason := .noReason }) := by
  by_cases h : b = 0
  · exact .inl ⟨h, by simp [acceptLength, h, State.emit]⟩
  · exact .inr ⟨h, by unfold acceptLength; rw [if_neg h]; rfl⟩

/-- Everything AwaitingEnd can do with a byte. -/
theorem acceptEnd_cases (b : Byte) (s : State) :
    (b = etx ∧ acceptEnd b s = { s with phase := .complete, res := .frameReady, reason := .noReason }) ∨
    (b ≠ etx ∧ acceptEnd b s = s.reject .unexpectedByte) := by
  by_cases h : b = etx
  · exact .inl ⟨h, by simp [acceptEnd, h, State.emit]⟩
  · exact .inr ⟨h, by simp [acceptEnd, h]⟩

/-- Everything ReadingPayload can answer. -/
theorem acceptPayload_cases (b : Byte) (s : State) :
    (s.cap.val < s.declLen.toNat ∧ acceptPayload b s = .next (s.reject .payloadTooLarge)) ∨
    (s.declLen.toNat ≤ s.cap.val ∧ s.cursor.toNat < s.declLen.toNat ∧
      acceptPayload b s = .next ((s.append b).emit .cont)) ∨
    (s.declLen.toNat ≤ s.cap.val ∧ s.declLen.toNat ≤ s.cursor.toNat ∧
      acceptPayload b s = .refused .payloadPastDeclared) := by
  by_cases hc : s.cap.val < s.declLen.toNat
  · exact .inl ⟨hc, by simp [acceptPayload, State.exceedsCap, hc]⟩
  · by_cases hd : s.cursor.toNat < s.declLen.toNat
    · exact .inr (.inl ⟨by omega, hd, by simp [acceptPayload, State.exceedsCap, State.payloadDue, hc, hd]⟩)
    · exact .inr (.inr ⟨by omega, by omega,
        by simp [acceptPayload, State.exceedsCap, State.payloadDue, hc, hd]⟩)

/-- Everything BYTE can do when it answers a next state, phase by phase. -/
theorem execByte_cases {b : Byte} {s t : State} (h : execByte b s = .next t) :
    (s.phase = .awaitingStart ∧ t = acceptStart b s) ∨
    (s.phase = .readingLength ∧ t = acceptLength b s) ∨
    (s.phase = .readingPayload ∧ s.cap.val < s.declLen.toNat ∧ t = s.reject .payloadTooLarge) ∨
    (s.phase = .readingPayload ∧ s.declLen.toNat ≤ s.cap.val ∧ s.cursor.toNat < s.declLen.toNat ∧
      t = (s.append b).emit .cont) ∨
    (s.phase = .readingChecksum ∧ t = acceptChecksum b s) ∨
    (s.phase = .awaitingEnd ∧ t = acceptEnd b s) ∨
    ((s.phase = .complete ∨ s.phase = .error) ∧ t = acceptStart b s.resetCore) := by
  rcases hp : s.phase <;> simp only [execByte, hp] at h
  case readingPayload =>
    rcases acceptPayload_cases b s with ⟨hc, e⟩ | ⟨hc, hd, e⟩ | ⟨_, _, e⟩ <;> rw [e] at h <;> cases h
    · exact .inr (.inr (.inl ⟨rfl, hc, rfl⟩))
    · exact .inr (.inr (.inr (.inl ⟨rfl, hc, hd, rfl⟩)))
  all_goals cases h; simp

/-- The cursor does not wrap when a payload byte is due (41_accept_byte.md R129). -/
theorem cursor_add_one {s : State} (h : s.cursor.toNat < s.declLen.toNat) :
    (s.cursor + 1).toNat = s.cursor.toNat + 1 := by
  have := s.declLen.isLt
  have h1 : (1 : Byte).toNat = 1 := rfl
  rw [BitVec.toNat_add, h1, Nat.mod_eq_of_lt]
  omega

/-- No command touches the model's own fields. -/
theorem exec_keeps_own_fields {i : Instr} {s t : State} (h : exec i s = .next t) :
    t.cap = s.cap ∧ t.inputs = s.inputs ∧ t.edge = s.edge := by
  cases i with
  | idle d => cases h; simp
  | reset d => cases h; simp
  | byte b =>
    rcases execByte_cases h with ⟨_, rfl⟩ | ⟨_, rfl⟩ | ⟨_, _, rfl⟩ | ⟨_, _, _, rfl⟩ | ⟨_, rfl⟩ | ⟨_, rfl⟩ | ⟨_, rfl⟩
    · rcases acceptStart_cases b s with ⟨_, e⟩ | ⟨_, e⟩ <;> simp [e]
    · rcases acceptLength_cases b s with ⟨_, e⟩ | ⟨_, e⟩ <;> simp [e]
    · simp
    · simp
    · simp [acceptChecksum]
    · rcases acceptEnd_cases b s with ⟨_, e⟩ | ⟨_, e⟩ <;> simp [e]
    · rcases acceptStart_cases b s.resetCore with ⟨_, e⟩ | ⟨_, e⟩ <;> simp [e]

/-- Commands do not see the coming inputs: presenting others first commutes with every command. -/
theorem execByte_inputs (b : Byte) (s : State) (ins : List EdgeInput) :
    execByte b { s with inputs := ins } =
      (match execByte b s with
        | .next t => .next { t with inputs := ins }
        | .fault f => .fault f
        | .refused r => .refused r) := by
  rcases hp : s.phase <;> simp only [execByte, hp]
  case awaitingStart => unfold acceptStart; split <;> simp [State.emit, hp]
  case readingLength => rfl
  case readingPayload =>
    rcases acceptPayload_cases b s with ⟨hc, e⟩ | ⟨hc, hd, e⟩ | ⟨hc, hd, e⟩ <;> rw [e]
    · simp [acceptPayload, State.exceedsCap, hc, State.reject]
    · simp [acceptPayload, State.exceedsCap, State.payloadDue, Nat.not_lt.2 hc, hd, State.append, State.emit,
        State.memWrite]
    · simp [acceptPayload, State.exceedsCap, State.payloadDue, Nat.not_lt.2 hc, Nat.not_lt.2 hd]
  case readingChecksum => rfl
  case awaitingEnd => unfold acceptEnd; split <;> rfl
  all_goals unfold acceptStart; split <;> rfl

/-- Everything the step can do: no edge, a hard reset, a command, or a reserved word. -/
theorem step_cases (s : State) :
    (s.inputs = [] ∧ step s = .refused .noInput) ∨
    (∃ e rest, s.inputs = e :: rest ∧
      ((e.rst = true ∧ step s = .next (s.beginEdge rest).fullReset) ∨
       (e.rst = false ∧ ∃ i, decode e.cmd = .ok i ∧ step s = exec i (s.beginEdge rest)) ∨
       (e.rst = false ∧ ∃ d, decode e.cmd = .error (.reservedOp d) ∧ step s = .refused (.reservedCommand d)))) := by
  rcases hi : s.inputs with _ | ⟨e, rest⟩
  · exact .inl ⟨rfl, by simp [step, hi]⟩
  · refine .inr ⟨e, rest, rfl, ?_⟩
    rcases hr : e.rst with _ | _
    · rcases hd : decode e.cmd with ⟨⟨d⟩⟩ | i
      · exact .inr (.inr ⟨rfl, d, rfl, by simp [step, hi, performEdge, hr, hd]⟩)
      · exact .inr (.inl ⟨rfl, i, rfl, by simp [step, hi, performEdge, hr, hd]⟩)
    · exact .inl ⟨rfl, by simp [step, hi, performEdge, hr, hardReset]⟩

end Sys2Proof.Machine
end

