-- ==== Sys2Proof/Laws/Memory.lean ====
section
/-! SUPPORT. The laws of the payload buffer: a read after a write, and the canonical form. -/

namespace Sys2Proof.Machine

@[simp] theorem Memory.read_nil (i : Nat) : Memory.read [] i = none := rfl

@[simp] theorem Memory.read_cons (j : Nat) (v : Byte) (m : Memory) (i : Nat) :
    Memory.read ((j, v) :: m) i = if j = i then some v else Memory.read m i := rfl

/-- One element is written, and every other index reads as before. -/
@[simp] theorem Memory.read_write (m : Memory) (i j : Nat) (v : Byte) :
    Memory.read (Memory.write m i v) j = if i = j then some v else Memory.read m j := by
  induction m with
  | nil => simp [Memory.write]
  | cons c m ih =>
    obtain ⟨k, w⟩ := c
    simp only [Memory.write]
    split
    · simp
    · split
      · next h => subst h; by_cases hj : i = j <;> simp [hj]
      · next h =>
        simp only [Memory.read_cons, ih]
        by_cases hk : k = j
        · have : i ≠ j := fun e => h (e.trans hk.symm)
          simp [hk, this]
        · simp [hk]

/-- A write lists no index but the written one and those listed before. -/
theorem Memory.mem_write {m : Memory} {i : Nat} {v : Byte} {c : Host.Cell} (h : c ∈ Memory.write m i v) :
    c.1 = i ∨ c ∈ m := by
  induction m with
  | nil => simp_all [Memory.write]
  | cons d m ih =>
    obtain ⟨k, w⟩ := d
    simp only [Memory.write] at h
    split at h
    · simp only [List.mem_cons] at h ⊢
      rcases h with rfl | h
      · exact .inl rfl
      · exact .inr h
    · split at h
      · simp only [List.mem_cons] at h ⊢
        rcases h with rfl | h
        · exact .inl rfl
        · exact .inr (.inr h)
      · simp only [List.mem_cons] at h ⊢
        rcases h with rfl | h
        · exact .inr (.inl rfl)
        · exact (ih h).imp_right .inr

/-- A write keeps the canonical form. -/
theorem Memory.wf_write {m : Memory} (h : m.wf) (i : Nat) (v : Byte) : (Memory.write m i v).wf := by
  induction m with
  | nil => simp [Memory.write, Memory.wf]
  | cons d m ih =>
    obtain ⟨k, w⟩ := d
    obtain ⟨hk, hm⟩ : (∀ x y, (x, y) ∈ m → k < x) ∧ Memory.wf m := by simpa [Memory.wf] using h
    simp only [Memory.write]
    split
    · next hi =>
      have : ∀ x y, (x, y) ∈ m → i < x := fun x y hx => hi.trans (hk x y hx)
      simpa [Memory.wf, hi] using ⟨this, hk, hm⟩
    · split
      · next hi => subst hi; simpa [Memory.wf] using ⟨hk, hm⟩
      · next h1 h2 =>
        have : ∀ x y, (x, y) ∈ Memory.write m i v → k < x := fun x y hx => by
          rcases Memory.mem_write hx with hx | hx
          · simp only at hx; omega
          · exact hk x y hx
        simpa [Memory.wf] using ⟨this, ih hm⟩

/-- The empty buffer of a reset instance is canonical. -/
theorem Memory.wf_nil : Memory.wf [] := List.Pairwise.nil

end Sys2Proof.Machine
end

