-- ==== Sys2Proof/Laws/PerInstr.lean ====
section
/-! SUPPORT. Statements about every command as syntax, one lemma per constructor. -/

namespace Sys2Proof.Laws.TableRow

/-- The encoding of a command matches its row of the opcode table: the bits under the row's mask 0x300 are the row's
match value (30_encoding.md R72 to R74), and no row takes a reserved word (R75). -/
def Statement (i : Instr) : Prop :=
  encode i &&& 0x300#10 = (match i with
    | .idle _ => 0x000#10
    | .byte _ => 0x100#10
    | .reset _ => 0x200#10)

theorem idle (data : Byte) : Statement (.idle data) := by
  revert data
  unfold Statement
  decide

theorem byte (b : Byte) : Statement (.byte b) := by
  revert b
  unfold Statement
  decide

theorem reset (data : Byte) : Statement (.reset data) := by
  revert data
  unfold Statement
  decide

end Sys2Proof.Laws.TableRow
end

