-- ==== Sys2Proof/Tests/Slice0.lean ====
section
/-! SUPPORT. Tests against the spec's own words and vectors (95_test_vectors.md), and a witness for every statement with
hypotheses. Expected values come from the spec, never from the model. -/

namespace Sys2Proof.Tests

open Sys2Proof.Machine

/-! ### Decoding and well-formedness -/

/-- 30_encoding.md R72: `00dddddddd`; VS8's word 0x0AB. -/
theorem test_decode_idle :
    decode 0b0000000000#10 = .ok (.idle 0) ∧ decode 0b0010101011#10 = .ok (.idle 0xAB) := by decide

/-- 30_encoding.md R73: `01bbbbbbbb`; STX is 0x102 (section 5), W2's last word is 0x1FF. -/
theorem test_decode_byte :
    decode 0b0100000010#10 = .ok (.byte 0x02) ∧ decode 0b0111111111#10 = .ok (.byte 0xFF) := by decide

/-- 30_encoding.md R74: `10dddddddd`; VS5's word 0x2FF. -/
theorem test_decode_reset :
    decode 0b1000000000#10 = .ok (.reset 0) ∧ decode 0b1011111111#10 = .ok (.reset 0xFF) := by decide

/-- 30_encoding.md R75: the first and the last reserved word. -/
theorem test_decode_reserved :
    decode 0b1100000000#10 = .error (.reservedOp 0) ∧ decode 0b1111111111#10 = .error (.reservedOp 0xFF) := by decide

/-- 30_encoding.md section 5: `IDLE` = 0x000, `RESET` = 0x200, `BYTE b` = 0x100 + b. -/
theorem test_encode :
    encode (.idle 0) = 0x000#10 ∧ encode (.reset 0) = 0x200#10 ∧ encode (.byte 0x03) = 0x103#10 ∧
    byteWord 0xFF = 0x1FF#10 := by decide

/-- The host's two entry points on the words of W1 and of the opcode table's rows. -/
theorem test_table_words :
    decodeTableWord 16 0x0000 = some (.idle 0) ∧ decodeTableWord 16 0x0102 = some (.byte 0x02) ∧
    decodeTableWord 16 0x0200 = some (.reset 0) ∧ decodeTableWord 16 0x0300 = none := by decide

/-- Reserved words are ill-formed (30_encoding.md R75); the last legal one is 0x2FF. -/
theorem test_wf_reserved_word :
    CmdWord.legal 0x300#10 = false ∧ CmdWord.legal 0x3FF#10 = false ∧ CmdWord.legal 0x2FF#10 = true ∧
    EdgeInput.legal ⟨false, 0x300#10⟩ = false ∧ EdgeInput.legal ⟨true, 0x300#10⟩ = true := by decide

/-- Every command is well-formed (30_encoding.md R73, R76): the check refuses no term. -/
theorem test_wf_commands : Instr.wf (.idle 0xFF) = true ∧ Instr.wf (.byte 0xFF) = true ∧ Instr.wf (.reset 0xFF) = true := by
  decide

/-- Each bound of 30_encoding.md R83 and R84 refuses a line that breaks it. -/
theorem test_wf_lines :
    AsmLine.wf (.byte 256) = false ∧ AsmLine.wf (.bytes []) = false ∧ AsmLine.wf (.bytes [0, 256]) = false ∧
    AsmLine.wf (.frame [256] 0) = false ∧ AsmLine.wf (.frame [] 256) = false ∧ AsmLine.wf (.wait 0) = false ∧
    AsmLine.wf (.frame (List.replicate 256 0) 0) = false :=
  ⟨by decide, by decide, by decide, by decide, by decide, by decide, by rw [AsmLine.wf, List.length_replicate]; rfl⟩

/-- The text of program P3's lines and what R83 and R84 make of them. -/
theorem test_assemble_text :
    assembleText ["BYTES 0x02, 0x05, 0x41   ; LEN 5".toList, "; only a comment".toList, "RESET".toList,
      "FRAME \x7b0x41, 'B'\x7d, 9".toList, "WAIT 2".toList] =
      .ok [0x102, 0x105, 0x141, 0x200, 0x102, 0x102, 0x141, 0x142, 0x109, 0x103, 0x000, 0x000] ∧
    assembleText ["BYTE 256".toList] = .error .outOfRange ∧ assembleText ["BYTE".toList] = .error .unreadable ∧
    assembleText ["FRAME \x7b\x7d, 0".toList] = .ok [0x102, 0x100, 0x100, 0x103] := by decide

/-! ### Small states -/

/-- A state of 95_test_vectors.md, `(phase, declLen, cursor, chk)` at a capacity, with the bytes 0x41, 0x42, ... stored
below the cursor as in W1, or as given. -/
def sample (cap : Fin 257) (p : Phase) (d c k : Byte) (bs : List Byte := []) : State :=
  { State.resetFor cap with
    phase := p, declLen := d, cursor := c, chk := k, buf := (List.range bs.length).zip bs }

/-- The same state with input words for the coming edges. -/
def sampleWith (s : State) (ws : List CmdWord) : State := { s with inputs := presented ws }

/-- The next state of an answer. -/
def nextOf : Answer → Option State
  | .next t => some t
  | .fault _ => none
  | .refused _ => none

/-- The registers a vector gives: phase, declLen, cursor, chk, res, reason. -/
def registers (s : State) : Phase × Byte × Byte × Byte × Result × Reason :=
  (s.phase, s.declLen, s.cursor, s.chk, s.res, s.reason)

/-! ### Vectors, two a command -/

/-- VS6: IDLE in Complete keeps the frame and ends the result. -/
theorem test_idle_VS6 :
    ((nextOf (exec (.idle 0) { sample 256 .complete 3 3 5 [0x41, 0x42, 0x43] with res := .frameReady })).map fun t =>
      (registers t, t.frameOut)) =
      some ((.complete, 3, 3, 5, .none, .noReason), some ⟨3, [0x41, 0x42, 0x43], 5⟩) := rfl

/-- VS8: the data bits of IDLE are ignored, at the pins. -/
theorem test_idle_VS8 :
    (nextOf (step (sampleWith (sample 256 .readingPayload 3 1 0 [0x41]) [0x0AB]))).map registers =
      some (.readingPayload, 3, 1, 0, .none, .noReason) := by decide

/-- VS1: RESET mid-frame discards the frame and leaves the buffer. -/
theorem test_reset_VS1 :
    ((nextOf (exec (.reset 0) (sample 256 .readingPayload 3 2 0 [0x41, 0x42]))).map fun t => (registers t, t.buf)) =
      some ((.awaitingStart, 0, 0, 0, .none, .noReason), [(0, 0x41), (1, 0x42)]) := rfl

/-- VS5: the data bits of RESET are ignored, at the pins. -/
theorem test_reset_VS5 :
    (nextOf (step (sampleWith (sample 256 .awaitingStart 0 0 0) [0x2FF]))).map registers =
      some (.awaitingStart, 0, 0, 0, .none, .noReason) := by decide

/-- VB9: the last byte of a payload of 255, without a wrap of the cursor. -/
theorem test_byte_VB9 :
    ((nextOf (exec (.byte 0xEE) (sample 256 .readingPayload 255 254 0))).map fun t => (registers t, t.buf)) =
      some ((.readingChecksum, 255, 255, 0, .cont, .noReason), [(254, 0xEE)]) := rfl

/-- VB26 after VB19: the oversized frame's STX-valued byte starts a frame (CAP = 4). -/
theorem test_byte_VB26 :
    (nextOf (exec (.byte 0x02) (sample 4 .error 5 0 0))).map registers =
      some (.readingLength, 0, 0, 0, .cont, .noReason) := by decide

/-- VH1 and VH3: a hard reset discards the command of its edge, a reserved word too. -/
theorem test_hard_reset :
    (nextOf (step { sample 256 .readingPayload 3 2 0 with inputs := [⟨true, 0x102⟩] })).map registers =
      some (.awaitingStart, 0, 0, 0, .none, .noReason) ∧
    (nextOf (step { sample 256 .awaitingEnd 1 1 7 with inputs := [⟨true, 0x300⟩] })).map registers =
      some (.awaitingStart, 0, 0, 0, .none, .noReason) := ⟨rfl, rfl⟩

/-- VO1 and VO4: the outputs after W1 and after W2. -/
theorem test_outputs :
    ({ sample 256 .complete 3 3 5 [0x41, 0x42, 0x43] with res := .frameReady } : State).outputs 1 =
      { phaseO := 5, resO := 2, reasonO := 0, frameValidO := 1, lenO := 3, cursorO := 3, chkO := 5, rdDataO := 0x42 } ∧
    ({ sample 256 .error 3 3 0 [0x41, 0x42, 0x43] with res := .frameRejected, reason := .unexpectedByte } : State).outputs 2 =
      { phaseO := 6, resO := 3, reasonO := 2, frameValidO := 0, lenO := 3, cursorO := 3, chkO := 0, rdDataO := 0x43 } := by
  decide

/-- A row's word, presented to the reset machine, runs as its first command. -/
theorem test_first_command :
    (nextOf (step (State.reset.withFetchWord 16 0x0102))).map registers =
      some (.readingLength, 0, 0, 0, .cont, .noReason) := by decide

/-! ### Witnesses: concrete inputs that meet the hypotheses of each statement -/

theorem witness_StreamsEncodeAndDecode :
    decodeStream [0x0FF, 0x1FF, 0x2FF] = .ok [.idle 0xFF, .byte 0xFF, .reset 0xFF] := by decide

theorem witness_DecodeFollowsMatchAndMask :
    0x0FF#10 &&& 0x300#10 = 0x000#10 ∧ 0x1FF#10 &&& 0x300#10 = 0x100#10 ∧ 0x200#10 &&& 0x300#10 = 0x200#10 ∧
    0x300#10 &&& 0x300#10 = 0x300#10 := by decide

theorem witness_AssembledStreamsDecode :
    assemble [.stx, .wait 1, .frame [0x43] 0x07] = some [0x102, 0x000, 0x102, 0x101, 0x143, 0x107, 0x103] := by decide

theorem witness_StepPerformsDecodedCommand :
    (sampleWith State.reset [0x102, 0x103]).inputs = ⟨false, 0x102⟩ :: presented [0x103] ∧
    decode 0x102#10 = .ok (.byte 0x02) := by decide

theorem witness_HardResetOverridesCommand :
    ({ sample 256 .awaitingEnd 1 1 7 with inputs := [⟨true, 0x300⟩] } : State).inputs = ⟨true, 0x300⟩ :: [] := by decide

/-- VS9, at the first and the last reserved word, and VH3. -/
theorem witness_ReservedWordRefusedUnlessReset :
    0x300 ≤ (0x300#10).toNat ∧ 0x300 ≤ (0x3FF#10).toNat ∧
    (sampleWith State.reset [0x300]).inputs = ⟨false, 0x300⟩ :: [] ∧
    ({ State.reset with inputs := [⟨true, 0x3FF⟩] } : State).inputs = ⟨true, 0x3FF⟩ :: [] := by decide

/-- Each refusal, the reserved ones at both ends of their range, and the boundary `cursor = declLen`. -/
theorem witness_StepRefusesExactlyWhen :
    step State.reset = .refused .noInput ∧
    step (sampleWith State.reset [0x300]) = .refused (.reservedCommand 0x00) ∧
    step (sampleWith State.reset [0x3FF]) = .refused (.reservedCommand 0xFF) ∧
    step (sampleWith (sample 256 .readingPayload 3 3 0) [0x141]) = .refused .payloadPastDeclared ∧
    (nextOf (step (sampleWith (sample 256 .readingPayload 3 2 0) [0x141]))).isSome ∧ State.reset.Inv :=
  ⟨rfl, rfl, rfl, rfl, by decide, by decide, by decide, ⟨rfl, rfl, rfl⟩, rfl⟩

/-- P3, edge 7, with what follows in the program and with a reserved word instead; and a refused edge. -/
theorem witness_LaterInputsChangeNothing :
    (nextOf (step { sample 4 .readingPayload 2 1 0 [0x44] with inputs := ⟨false, 0x200⟩ :: presented [0x102] })).isSome ∧
    (nextOf (step { sample 4 .readingPayload 2 1 0 [0x44] with inputs := ⟨false, 0x200⟩ :: presented [0x300] })).isSome ∧
    step { State.reset with inputs := ⟨false, 0x300⟩ :: presented [0x102] } = .refused (.reservedCommand 0) :=
  ⟨by decide, by decide, rfl⟩

/-- The states of the vectors satisfy 10_state.md R29: here W1 after edge 5, with the checksum still due. -/
theorem sample_inv : (sample 256 .readingChecksum 3 3 0 [0x41, 0x42, 0x43]).Inv :=
  ⟨by decide, by decide, ⟨by decide, rfl, rfl⟩, rfl⟩

/-- W1 after its last edge. -/
theorem complete_inv (e : EdgeInput) : ({ sample 256 .complete 3 3 5 [0x41, 0x42, 0x43] with
    res := .frameReady, inputs := [e] } : State).Inv :=
  ⟨(by decide : (sample 256 .complete 3 3 5 [0x41, 0x42, 0x43]).storageOk),
    (by decide : (sample 256 .complete 3 3 5 [0x41, 0x42, 0x43]).payloadStored),
    ⟨(by decide : (3 : Byte).toNat ≤ (256 : Fin 257).val), rfl⟩, ⟨rfl, rfl⟩⟩

/-- W6 at CAP = 254 after its last edge: Error after PayloadTooLarge. -/
theorem error_inv : ({ sample 254 .error 255 0 0 with res := .frameRejected, reason := .payloadTooLarge } : State).Inv :=
  ⟨by decide, by decide, .inl (by decide), ⟨by decide, rfl⟩⟩

theorem witness_LegalEdgesAlwaysComplete :
    (∀ e, ({ sample 256 .complete 3 3 5 [0x41, 0x42, 0x43] with res := .frameReady, inputs := [e] } : State).Inv) ∧
    (⟨true, 0x300⟩ : EdgeInput).rst = true ∧ (0x2FF#10).toNat < 0x300 := ⟨complete_inv, rfl, by decide⟩

theorem witness_StepTakesOneInput :
    step (sampleWith State.reset [0x000]) = .next { State.reset with edge := 1 } := rfl

theorem witness_StepKeepsFrameInvariant :
    ({ sample 256 .complete 3 3 5 [0x41, 0x42, 0x43] with res := .frameReady, inputs := [⟨false, 0x102⟩] } : State).Inv ∧
    (nextOf (step { sample 256 .complete 3 3 5 [0x41, 0x42, 0x43] with
      res := .frameReady, inputs := [⟨false, 0x102⟩] })).isSome := ⟨complete_inv _, by decide⟩

/-- A state outside R29 with a proper buffer, and each way to reset it. -/
theorem witness_AnyResetEstablishesInvariant :
    (sample 4 .readingPayload 3 200 9 [0x41]).storageOk ∧ (⟨true, 0x3FF⟩ : EdgeInput).rst = true ∧
    (0x200 ≤ (0x200#10).toNat ∧ (0x200#10).toNat < 0x300) ∧ (0x200 ≤ (0x2FF#10).toNat ∧ (0x2FF#10).toNat < 0x300) := by
  decide

theorem witness_SafeStatesRunToTheEnd :
    ({ sample 256 .complete 3 3 5 [0x41, 0x42, 0x43] with res := .frameReady, inputs := [⟨false, 0x2FF⟩] } : State).Safe :=
  ⟨complete_inv _, by decide⟩

/-- P1, edges 10 and 11. -/
theorem witness_IdleEdgesHoldState :
    [0x000#10, 0x0FF#10] ≠ [] ∧ (∀ w ∈ [0x000#10, 0x0FF#10], w.toNat < 0x100) ∧
    (sampleWith (sample 256 .complete 3 3 5) [0x000, 0x0FF, 0x102]).inputs =
      presented [0x000, 0x0FF] ++ presented [0x102] := by decide

theorem witness_ThreeResetsAgree :
    (sample 256 .complete 2 2 3).phase = .complete ∧ (sample 256 .error 2 2 3).phase = .error := ⟨rfl, rfl⟩

/-- VB1 and VB2. -/
theorem witness_StartByteOrNoise :
    (sample 256 .awaitingStart 0 0 0).phase = .awaitingStart ∧ (0x02 : Byte) = 0x02 ∧ (0x03 : Byte) ≠ 0x02 := by decide

/-- VB6 and VB4. -/
theorem witness_LengthByteTaken :
    (sample 256 .readingLength 0 0 0).phase = .readingLength ∧ (0xFF : Byte) ≠ 0x00 ∧ (0x00 : Byte) = 0x00 := by decide

/-- VB20: the declared length equals the capacity, and the byte is the last; VB8: it is not. -/
theorem witness_PayloadByteAppended :
    (sample 4 .readingPayload 4 3 0).phase = .readingPayload ∧ (sample 4 .readingPayload 4 3 0).declLen.toNat ≤ 4 ∧
    (3 : Byte).toNat < (4 : Byte).toNat ∧ (3 : Byte) + 1 = 4 ∧
    (sample 256 .readingPayload 3 1 0).declLen.toNat ≤ 256 ∧ (1 : Byte).toNat < (3 : Byte).toNat ∧ (1 : Byte) + 1 ≠ 3 := by
  decide

/-- VB24 and VB25. -/
theorem witness_PayloadTooLargeRejected :
    (sample 254 .readingPayload 255 0 0).phase = .readingPayload ∧
    (sample 254 .readingPayload 255 0 0).cap.val < (sample 254 .readingPayload 255 0 0).declLen.toNat ∧
    255 ≤ (sample 255 .readingPayload 255 0 0).cap.val := by decide

/-- Both sides of the boundary `cursor = declLen`, the second from VB8. -/
theorem witness_ByteRefusesOnlyPastDeclared :
    ((sample 256 .readingPayload 3 3 0).phase = .readingPayload ∧ (3 : Byte).toNat ≤ (256 : Fin 257).val ∧
      (3 : Byte).toNat ≤ (3 : Byte).toNat) ∧
    ¬ (3 : Byte).toNat ≤ (sample 256 .readingPayload 3 2 0).cursor.toNat := by decide

theorem witness_ChecksumByteCaptured : (sample 256 .readingChecksum 2 2 0).phase = .readingChecksum := rfl

/-- VB12 and VB13. -/
theorem witness_EndByteDecidesFrame :
    (sample 256 .awaitingEnd 2 2 3).phase = .awaitingEnd ∧ (0x03 : Byte) = 0x03 ∧ (0x02 : Byte) ≠ 0x03 ∧
    (sample 256 .awaitingEnd 2 2 3).cursor = (sample 256 .awaitingEnd 2 2 3).declLen ∧
    (sample 2 .awaitingEnd 2 2 3).declLen.toNat ≤ (sample 2 .awaitingEnd 2 2 3).cap.val := by decide

theorem witness_TerminalPhaseRestarts :
    (sample 256 .complete 2 2 3).phase = .complete ∧ (sample 256 .error 2 2 3).phase = .error := ⟨rfl, rfl⟩

/-- VB20 and VB12, with their table rows. -/
theorem witness_ControlTableAtThePins :
    (sampleWith (sample 4 .readingPayload 4 3 0) [0x144]).inputs = ⟨false, byteWord 0x44⟩ :: [] ∧
    (3 : Byte).toNat < (4 : Byte).toNat ∧
    (sampleWith (sample 256 .awaitingEnd 2 2 3) [0x103]).inputs = ⟨false, byteWord 0x03⟩ :: [] := by decide

/-- VB19, VB13 and VB12: each outcome occurs. -/
theorem witness_OneResultPerByte :
    (nextOf (exec (.byte 0x41) (sample 4 .readingPayload 5 0 0))).map registers =
      some (.error, 5, 0, 0, .frameRejected, .payloadTooLarge) ∧
    (nextOf (exec (.byte 0x02) (sample 256 .awaitingEnd 2 2 3))).map registers =
      some (.error, 2, 2, 3, .frameRejected, .unexpectedByte) ∧
    (nextOf (exec (.byte 0x03) (sample 256 .awaitingEnd 2 2 3))).map registers =
      some (.complete, 2, 2, 3, .frameReady, .noReason) := ⟨rfl, rfl, rfl⟩

/-- Boundary words of each clause step. -/
theorem witness_ResultRegisterAfterEveryEdge :
    (nextOf (step (sampleWith State.reset [0x0FF]))).isSome ∧ (nextOf (step (sampleWith State.reset [0x100]))).isSome ∧
    (nextOf (step (sampleWith State.reset [0x1FF]))).isSome ∧ (nextOf (step (sampleWith State.reset [0x200]))).isSome ∧
    (nextOf (step { State.reset with inputs := [⟨true, 0x1FF⟩] })).isSome := by decide

theorem witness_RejectionChangesNothingElse :
    exec (.byte 0xFF) (sample 256 .awaitingEnd 3 3 0) = .next ((sample 256 .awaitingEnd 3 3 0).reject .unexpectedByte) ∧
    ((sample 256 .awaitingEnd 3 3 0).reject .unexpectedByte).res = .frameRejected := ⟨rfl, rfl⟩

theorem witness_TerminalPhaseLeftOnlyBy :
    (sampleWith (sample 256 .error 2 2 3) [0x2FF]).phase = .error ∧ (0x2FF#10).toNat < 0x300 ∧
    (0x0FF#10).toNat < 0x100 ∧ (0x100 ≤ (0x1FF#10).toNat ∧ (0x1FF#10).toNat < 0x200) ∧ 0x200 ≤ (0x200#10).toNat := by decide

/-- W1, edge 7. -/
theorem witness_CompleteEnteredOnlyByEtx :
    ∃ t, step (sampleWith (sample 256 .awaitingEnd 3 3 5) [0x103]) = .next t ∧ t.phase = .complete ∧
      (sampleWith (sample 256 .awaitingEnd 3 3 5) [0x103]).phase ≠ .complete := ⟨_, rfl, rfl, by decide⟩

/-- W1, edge 4, and an edge that writes nothing. -/
theorem witness_OnlyPayloadBytesWriteBuffer :
    ((nextOf (step (sampleWith (sample 256 .readingPayload 3 1 0 [0x41]) [0x142]))).map State.buf =
      some [(0, 0x41), (1, 0x42)]) ∧
    (nextOf (step (sampleWith (sample 256 .readingPayload 3 1 0 [0x41]) [0x000]))).map State.buf = some [(0, 0x41)] := by
  decide

/-- Two buffers that differ at the cursor. -/
theorem witness_StaleBytesSteerNothing :
    (∀ i, i < (sample 256 .readingPayload 3 1 0 [0x41]).cursor.toNat →
      Memory.read [(0, 0x41), (1, 0x99)] i = (sample 256 .readingPayload 3 1 0 [0x41]).buf.read i) ∧
    (nextOf (step (sampleWith (sample 256 .readingPayload 3 1 0 [0x41]) [0x142]))).isSome ∧
    step (sampleWith State.reset [0x300]) = .refused (.reservedCommand 0) := by
  refine ⟨?_, by decide, rfl⟩
  intro i hi
  have : i = 0 := by simpa [sample] using hi
  subst this; rfl

theorem witness_PayloadValueSteersNothing :
    (sample 256 .readingPayload 1 0 0).phase = .readingPayload ∧
    (nextOf (exec (.byte 0x02) (sample 256 .readingPayload 1 0 0))).isSome := by decide

theorem witness_ChecksumSteersNothing :
    (nextOf (exec (.byte 0x02) (sample 256 .complete 2 2 3))).isSome ∧
    (sample 256 .readingChecksum 2 2 0).phase = .readingChecksum := by decide

/-- VO1 and VO2: below the cursor, at it, and beyond the capacity. -/
theorem witness_ReadPortShowsWrittenBytes :
    (sample 256 .readingChecksum 3 3 0 [0x41, 0x42, 0x43]).Inv ∧ (2 : Byte).toNat < (3 : Byte).toNat ∧
    (3 : Byte).toNat ≤ (3 : Byte).toNat ∧ (sample 4 .readingChecksum 3 3 0).cap.val ≤ (4 : Byte).toNat :=
  ⟨sample_inv, by decide, by decide, by decide⟩

theorem witness_FrameOfferedWhileComplete :
    (∀ e, ({ sample 256 .complete 3 3 5 [0x41, 0x42, 0x43] with res := .frameReady, inputs := [e] } : State).Inv) ∧
    (sample 256 .complete 3 3 5).phase = .complete ∧ (sample 256 .error 3 3 5).phase ≠ .complete ∧
    (0x0FF#10).toNat < 0x100 ∧ 0x100 ≤ (0x100#10).toNat := ⟨complete_inv, rfl, by decide, by decide, by decide⟩

/-- W1 and W3: the hypotheses at three bytes, and at none in an instance without storage, and the frame W1 gives. -/
theorem witness_WellFormedFrameDelivered :
    (startRun 256 ([0x02, 0x03, 0x41, 0x42, 0x43, 0x05, 0x03].map byteWord)).inputs =
      presentedBytes (wireFrame [0x41, 0x42, 0x43] 0x05) ++ [] ∧
    (startRun 0 ([0x02, 0x00, 0x5A, 0x03].map byteWord)).inputs = presentedBytes (wireFrame [] 0x5A) ++ [] ∧
    (startRun 0 []).phase = .awaitingStart ∧ [0x41#8, 0x42#8, 0x43#8].length ≤ (startRun 256 []).cap.val ∧
    ((runWords 256 [0x102, 0x103, 0x141, 0x142, 0x143, 0x105, 0x103]).bind fun r => r.2.frameOut) =
      some ⟨3, [0x41, 0x42, 0x43], 0x05⟩ := by decide

/-- W1 up to edge 4, and up to edge 5. -/
theorem witness_PayloadStoredInOrder :
    0 < (3 : Byte).toNat ∧ (3 : Byte).toNat ≤ (startRun 256 []).cap.val ∧ [0x41#8, 0x42#8, 0x43#8].length ≤ (3 : Byte).toNat ∧
    (startRun 256 [0x102, 0x103, 0x141, 0x142]).inputs = presentedBytes (0x02 :: 3 :: [0x41, 0x42]) ++ [] := by decide

/-- W6 at CAP = 254. -/
theorem witness_OversizedFrameRejected :
    (startRun 254 []).cap.val < (0xFF : Byte).toNat ∧
    (startRun 254 [0x102, 0x1FF, 0x141]).inputs = presentedBytes [0x02, 0xFF, 0x41] ++ [] ∧
    ((runWords 254 [0x102, 0x1FF, 0x141]).map fun r => registers r.2) =
      some (.error, 255, 0, 0, .frameRejected, .payloadTooLarge) := by decide

/-- P2, edges 5 and 6. -/
theorem witness_RejectingByteConsumed :
    (sampleWith (sample 256 .awaitingEnd 1 1 7) [0x102, 0x101]).phase = .awaitingEnd ∧ (0x02 : Byte) ≠ 0x03 ∧
    (sampleWith (sample 256 .awaitingEnd 1 1 7) [0x102, 0x101]).inputs = presentedBytes [0x02, 0x01] ++ [] := by decide

/-- W4. -/
theorem witness_LeadingNoiseDiscarded :
    (startRun 256 [0x1FF, 0x1AA, 0x102]).phase = .awaitingStart ∧ [0xFF#8, 0xAA#8] ≠ [] ∧
    (∀ b ∈ [0xFF#8, 0xAA#8], b ≠ 0x02#8) ∧
    (startRun 256 [0x1FF, 0x1AA, 0x102]).inputs = presentedBytes [0xFF, 0xAA] ++ presented [0x102] := by decide

end Sys2Proof.Tests
end

section
/-! The step: it takes one input, and performs the command its word decodes to (00_scope.md R10, R13). -/

namespace Sys2Proof.Machine

/-- The decoder refuses only the words of op 11 (30_encoding.md R75). -/
theorem decode_ok_of_legal {w : CmdWord} (h : w.toNat < 0x300) : ∃ i, decode w = .ok i := by
  rcases decode_cases w with ⟨_, e⟩ | ⟨_, e⟩ | ⟨_, e⟩ | ⟨hop, _⟩
  · exact ⟨_, e⟩
  · exact ⟨_, e⟩
  · exact ⟨_, e⟩
  · have hop' : (opField w).toNat = 3 := by simp [hop]
    rw [opField, BitVec.extractLsb'_toNat, Nat.shiftRight_eq_div_pow] at hop'
    omega

/-- An edge with `rst = 1` performs the reset procedure, whatever its word (70_reset_and_hazards.md R180). -/
theorem step_of_rst {s : State} {e : EdgeInput} {rest : List EdgeInput} (hi : s.inputs = e :: rest)
    (hr : e.rst = true) : step s = .next (s.beginEdge rest).fullReset := by
  simp [step, hi, performEdge, hr, hardReset]

/-- An edge with `rst = 0` performs the command its word decodes to (60_exceptions.md R156). -/
theorem step_of_decode {s : State} {e : EdgeInput} {rest : List EdgeInput} {i : Instr} (hi : s.inputs = e :: rest)
    (hr : e.rst = false) (hd : decode e.cmd = .ok i) : step s = exec i (s.beginEdge rest) := by
  simp [step, hi, performEdge, hr, hd]

/-- A step that answers a next state was a hard reset or a command. -/
theorem step_next_cases {s t : State} (h : step s = .next t) :
    ∃ e rest, s.inputs = e :: rest ∧
      (t = (s.beginEdge rest).fullReset ∨ ∃ i, exec i (s.beginEdge rest) = .next t) := by
  rcases step_cases s with ⟨_, hs⟩ | ⟨e, rest, hi, ⟨_, hs⟩ | ⟨_, i, _, hs⟩ | ⟨_, d, _, hs⟩⟩ <;> rw [hs] at h
  · cases h
  · cases h
    exact ⟨e, rest, hi, .inl rfl⟩
  · exact ⟨e, rest, hi, .inr ⟨i, h⟩⟩
  · cases h

/-- Settles O7: the decoded command is the one the edge performs. -/
theorem stepPerformsDecodedCommand : Obligations.StepPerformsDecodedCommand := by
  intro s w rest i hi hd
  exact step_of_decode hi rfl hd

/-- Settles O12: beginning the edge changes the model's own fields, and what the edge performs keeps them. -/
theorem stepTakesOneInput : Obligations.StepTakesOneInput := by
  intro s t h
  obtain ⟨e, rest, hi, rfl | ⟨i, hx⟩⟩ := step_next_cases h
  · simp [hi]
  · obtain ⟨hcap, hin, hedge⟩ := exec_keeps_own_fields hx
    simp [hi, hcap, hin, hedge]

end Sys2Proof.Machine
end

section
/-! The invariant of 10_state.md R29: its rows, and one lemma per operation that keeps or establishes it. -/

namespace Sys2Proof.Machine

variable {s t : State}

/-! ### The rows of the table -/

theorem State.row_awaitingStart (hp : s.phase = .awaitingStart) :
    s.row ↔ s.declLen = 0 ∧ s.cursor = 0 ∧ s.chk = 0 := by simp only [State.row, hp]

theorem State.row_readingLength (hp : s.phase = .readingLength) :
    s.row ↔ s.declLen = 0 ∧ s.cursor = 0 ∧ s.chk = 0 := by simp only [State.row, hp]

theorem State.row_readingPayload (hp : s.phase = .readingPayload) :
    s.row ↔ s.cursor.toNat < s.declLen.toNat ∧ (s.cap.val < s.declLen.toNat → s.cursor = 0) ∧ s.chk = 0 := by
  simp only [State.row, hp]

theorem State.row_readingChecksum (hp : s.phase = .readingChecksum) :
    s.row ↔ s.declLen.toNat ≤ s.cap.val ∧ s.cursor = s.declLen ∧ s.chk = 0 := by simp only [State.row, hp]

theorem State.row_awaitingEnd (hp : s.phase = .awaitingEnd) :
    s.row ↔ s.declLen.toNat ≤ s.cap.val ∧ s.cursor = s.declLen := by simp only [State.row, hp]

/-- Every row but those of Error speaks of four registers only, and those of Error only forbid a reason: without a
reason the row stays (10_state.md R29). -/
theorem State.row_noResult (h : s.row) : s.noResult.row := by
  unfold State.row at h ⊢
  rcases hp : s.phase <;> simp only [State.noResult_phase, hp] at h ⊢
  case error =>
    rcases h with ⟨hcap, hcur, hchk, _⟩ | ⟨hcap, hcur, _⟩
    · exact .inl ⟨hcap, hcur, hchk, nofun⟩
    · exact .inr ⟨hcap, hcur, nofun⟩
  all_goals exact h

/-- With no byte of a frame received, none has to be stored. -/
theorem State.payloadStored_of_cursor_zero (h : s.cursor = 0) : s.payloadStored := by
  simp [State.payloadStored, h]

/-- Continue agrees with every phase that is not terminal (41_accept_byte.md R122). -/
theorem State.resultOk_of_cont (hres : s.res = .cont) (hreason : s.reason = .noReason)
    (hp : s.phase.terminal = false) : s.resultOk := by
  simp only [State.resultOk, hres]
  exact ⟨hreason, fun h => by simp [h, Phase.terminal] at hp, fun h => by simp [h, Phase.terminal] at hp⟩

/-! ### The operations of an edge -/

/-- The invariant does not speak of the coming inputs or of the count of edges. -/
theorem State.Inv.beginEdge (h : s.Inv) (rest : List EdgeInput) : (s.beginEdge rest).Inv :=
  ⟨h.storage, h.stored, h.row, h.result⟩

theorem State.Inv.noResult (h : s.Inv) : s.noResult.Inv :=
  ⟨h.storage, h.stored, State.row_noResult h.row, rfl⟩

/-- The reset procedure needs only a properly stored buffer (40_reset_idle.md R100, R101). -/
theorem State.fullReset_inv (h : s.storageOk) : s.fullReset.Inv :=
  ⟨h, State.payloadStored_of_cursor_zero rfl, ⟨rfl, rfl, rfl⟩, rfl⟩

/-- R112 and R113 of 41_accept_byte.md, from a state whose registers are those after a reset. -/
theorem acceptStart_inv (b : Byte) (hst : s.storageOk) (hp : s.phase = .awaitingStart) (hrow : s.row) :
    (acceptStart b s).Inv := by
  have hregs := (State.row_awaitingStart hp).1 hrow
  have hstored : s.payloadStored := State.payloadStored_of_cursor_zero hregs.2.1
  rcases acceptStart_cases b s with ⟨_, e⟩ | ⟨_, e⟩ <;> rw [e]
  · exact ⟨hst, hstored, hregs, ⟨rfl, nofun, nofun⟩⟩
  · exact ⟨hst, hstored, (State.row_awaitingStart (by exact hp)).2 hregs,
      State.resultOk_of_cont rfl rfl (by rw [hp]; rfl)⟩

/-- R114 and R115 of 41_accept_byte.md. -/
theorem acceptLength_inv (b : Byte) (h : s.Inv) (hp : s.phase = .readingLength) : (acceptLength b s).Inv := by
  obtain ⟨_, _, hchk⟩ := (State.row_readingLength hp).1 h.row
  rcases acceptLength_cases b s with ⟨_, e⟩ | ⟨hb, e⟩ <;> rw [e]
  · exact ⟨h.storage, State.payloadStored_of_cursor_zero rfl, ⟨Nat.zero_le _, rfl, hchk⟩, ⟨rfl, nofun, nofun⟩⟩
  · have hpos : 0 < b.toNat := Nat.pos_of_ne_zero fun h0 => hb (BitVec.eq_of_toNat_eq h0)
    exact ⟨h.storage, State.payloadStored_of_cursor_zero rfl, ⟨hpos, fun _ => rfl, hchk⟩, ⟨rfl, nofun, nofun⟩⟩

/-- R117 of 41_accept_byte.md: the first row of Error. -/
theorem reject_payloadTooLarge_inv (h : s.Inv) (hp : s.phase = .readingPayload)
    (hcap : s.cap.val < s.declLen.toNat) : (s.reject .payloadTooLarge).Inv := by
  obtain ⟨_, hcur, hchk⟩ := (State.row_readingPayload hp).1 h.row
  exact ⟨h.storage, h.stored, .inl ⟨hcap, hcur hcap, hchk, nofun⟩, ⟨nofun, rfl⟩⟩

/-- A byte appended below the capacity leaves the buffer properly stored (20_memory.md R50, R52). -/
theorem append_storageOk (b : Byte) (h : s.storageOk) (hcur : s.cursor.toNat < s.cap.val) :
    (s.append b).storageOk := by
  obtain ⟨hwf, hlt⟩ := h
  refine ⟨Memory.wf_write hwf _ _, fun c hc => ?_⟩
  rcases Memory.mem_write hc with hi | hold
  · exact hi ▸ hcur
  · exact hlt c hold

/-- The appended byte is stored, and those before it stay (20_memory.md R54). -/
theorem append_payloadStored (b : Byte) (h : s.payloadStored) (hdue : s.cursor.toNat < s.declLen.toNat) :
    (s.append b).payloadStored := by
  intro i hi
  rw [State.append_cursor, cursor_add_one hdue, List.mem_range] at hi
  rw [State.append_buf, Memory.read_write]
  split
  · rfl
  · exact h i (List.mem_range.2 (by omega))

/-- R116 of 41_accept_byte.md: either the last byte, or one more is due. -/
theorem append_inv (b : Byte) (h : s.Inv) (hp : s.phase = .readingPayload) (hcap : s.declLen.toNat ≤ s.cap.val)
    (hdue : s.cursor.toNat < s.declLen.toNat) : ((s.append b).emit .cont).Inv := by
  obtain ⟨_, _, hchk⟩ := (State.row_readingPayload hp).1 h.row
  have hst := append_storageOk b h.storage (hdue.trans_le hcap)
  have hstored := append_payloadStored b h.stored hdue
  by_cases hlast : s.cursor + 1 = s.declLen
  · have hp' : ((s.append b).emit .cont).phase = .readingChecksum := if_pos hlast
    exact ⟨hst, hstored, (State.row_readingChecksum hp').2 ⟨hcap, hlast, hchk⟩,
      State.resultOk_of_cont rfl rfl (by rw [hp']; rfl)⟩
  · have hp' : ((s.append b).emit .cont).phase = .readingPayload := if_neg hlast
    have hmore : (s.cursor + 1).toNat < s.declLen.toNat := by
      have hne : (s.cursor + 1).toNat ≠ s.declLen.toNat := fun e => hlast (BitVec.eq_of_toNat_eq e)
      rw [cursor_add_one hdue] at hne ⊢
      omega
    exact ⟨hst, hstored, (State.row_readingPayload hp').2 ⟨hmore, fun hbig => absurd hbig hcap.not_gt, hchk⟩,
      State.resultOk_of_cont rfl rfl (by rw [hp']; rfl)⟩

/-- R118 of 41_accept_byte.md. -/
theorem acceptChecksum_inv (b : Byte) (h : s.Inv) (hp : s.phase = .readingChecksum) : (acceptChecksum b s).Inv := by
  obtain ⟨hcap, hcur, _⟩ := (State.row_readingChecksum hp).1 h.row
  exact ⟨h.storage, h.stored, ⟨hcap, hcur⟩, ⟨rfl, nofun, nofun⟩⟩

/-- R119 and R120 of 41_accept_byte.md: Complete, or the second row of Error. -/
theorem acceptEnd_inv (b : Byte) (h : s.Inv) (hp : s.phase = .awaitingEnd) : (acceptEnd b s).Inv := by
  obtain ⟨hcap, hcur⟩ := (State.row_awaitingEnd hp).1 h.row
  rcases acceptEnd_cases b s with ⟨_, e⟩ | ⟨_, e⟩ <;> rw [e]
  · exact ⟨h.storage, h.stored, ⟨hcap, hcur⟩, ⟨rfl, rfl⟩⟩
  · exact ⟨h.storage, h.stored, .inr ⟨hcap, hcur, nofun⟩, ⟨nofun, rfl⟩⟩

/-! ### Every command and every step -/

theorem execByte_inv {b : Byte} (h : s.Inv) (hx : execByte b s = .next t) : t.Inv := by
  rcases execByte_cases hx with ⟨hp, rfl⟩ | ⟨hp, rfl⟩ | ⟨hp, hcap, rfl⟩ | ⟨hp, hcap, hdue, rfl⟩ | ⟨hp, rfl⟩ |
    ⟨hp, rfl⟩ | ⟨_, rfl⟩
  · exact acceptStart_inv b h.storage hp h.row
  · exact acceptLength_inv b h hp
  · exact reject_payloadTooLarge_inv h hp hcap
  · exact append_inv b h hp hcap hdue
  · exact acceptChecksum_inv b h hp
  · exact acceptEnd_inv b h hp
  · exact acceptStart_inv b h.storage rfl ⟨rfl, rfl, rfl⟩

theorem exec_inv {i : Instr} (h : s.Inv) (hx : exec i s = .next t) : t.Inv := by
  cases i with
  | idle d => cases hx; exact h.noResult
  | byte b => exact execByte_inv h hx
  | reset d => cases hx; exact State.fullReset_inv h.storage

/-- Every step keeps the invariant of 10_state.md R29. -/
theorem step_inv (h : s.Inv) (hs : step s = .next t) : t.Inv := by
  obtain ⟨e, rest, _, rfl | ⟨i, hx⟩⟩ := step_next_cases hs
  · exact State.fullReset_inv h.storage
  · exact exec_inv (h.beginEdge rest) hx

/-- BYTE completes in the invariant: in ReadingPayload a byte is still due (20_memory.md R52). -/
theorem execByte_completes (b : Byte) (h : s.Inv) : ∃ t, execByte b s = .next t := by
  rcases hp : s.phase <;> simp only [execByte, hp]
  case readingPayload =>
    obtain ⟨hdue, _⟩ := (State.row_readingPayload hp).1 h.row
    rcases acceptPayload_cases b s with ⟨_, e⟩ | ⟨_, _, e⟩ | ⟨_, hpast, _⟩
    · exact ⟨_, e⟩
    · exact ⟨_, e⟩
    · exact absurd hdue hpast.not_gt
  all_goals exact ⟨_, rfl⟩

theorem exec_completes (i : Instr) (h : s.Inv) : ∃ t, exec i s = .next t := by
  cases i with
  | idle d => exact ⟨_, rfl⟩
  | byte b => exact execByte_completes b h
  | reset d => exact ⟨_, rfl⟩

end Sys2Proof.Machine
end

section
/-! Legal edges complete, and safe states run to the end of their inputs (00_scope.md R12, R13; 70_reset_and_hazards.md
R184, R190). -/

namespace Sys2Proof.Machine

/-- Settles O11: a hard reset always completes, and a legal word decodes to a command, which completes in the
invariant. -/
theorem legalEdgesAlwaysComplete : Obligations.LegalEdgesAlwaysComplete := by
  intro s e rest h hi hlegal
  rcases hr : e.rst with _ | _
  · obtain ⟨i, hd⟩ := decode_ok_of_legal (hlegal.resolve_left (by simp [hr]))
    rw [step_of_decode hi hr hd]
    exact exec_completes i (h.beginEdge rest)
  · exact ⟨_, step_of_rst hi hr⟩

theorem EdgeInput.legal_iff (e : EdgeInput) : e.legal = true ↔ e.rst = true ∨ e.cmd.toNat < 0x300 := by
  simp [EdgeInput.legal, CmdWord.legal]

/-- A safe state with an input left performs an edge, takes that input and stays safe. -/
theorem State.Safe.exists_step {s : State} {e : EdgeInput} {rest : List EdgeInput} (h : s.Safe)
    (hi : s.inputs = e :: rest) : ∃ t, step s = .next t ∧ t.inputs = rest ∧ t.cap = s.cap ∧ t.Safe := by
  have hlegal := h.legal
  rw [hi, List.forall_mem_cons] at hlegal
  obtain ⟨he, hrest⟩ := hlegal
  obtain ⟨t, ht⟩ := legalEdgesAlwaysComplete s e rest h.inv hi (e.legal_iff.1 he)
  obtain ⟨hcap, _, e', hi'⟩ := stepTakesOneInput s t ht
  obtain ⟨_, rfl⟩ := List.cons.inj (hi.symm.trans hi')
  exact ⟨t, ht, rfl, hcap, ⟨step_inv h.inv ht, hrest⟩⟩

/-- An edge that completes is observed first. -/
theorem observe_succ_of_step {s t : State} (h : step s = .next t) (k : Nat) :
    observe (k + 1) s = (observe k t).map fun r => (t.observation :: r.1, r.2) := by
  simp only [observe, h]

/-- Settles O16, by induction on the inputs: the first edge leads to a safe state with the others left. -/
theorem safeStatesRunToTheEnd : Obligations.SafeStatesRunToTheEnd := by
  intro s h
  generalize hi : s.inputs = ins
  induction ins generalizing s with
  | nil => exact ⟨[], s, rfl, rfl, hi, rfl, h⟩
  | cons e rest ih =>
    obtain ⟨t, hstep, hti, htcap, htsafe⟩ := h.exists_step hi
    obtain ⟨obs, u, hobs, hlen, hui, hucap, husafe⟩ := ih t htsafe hti
    refine ⟨t.observation :: obs, u, ?_, by simp [hlen], hui, hucap.trans htcap, husafe⟩
    rw [List.length_cons, observe_succ_of_step hstep, hobs]
    rfl

end Sys2Proof.Machine
end

section
/-! The state and its resets: the invariant from every step and from every reset, and the values after a reset (10_state.md
R29, R31; 70_reset_and_hazards.md R183). -/

namespace Sys2Proof.Machine

/-- Settles O14: a hard reset and each command keep the invariant, a BYTE row by row. -/
theorem stepKeepsFrameInvariant : Obligations.StepKeepsFrameInvariant := fun _ _ => step_inv

/-! ### The ranges of the command words -/

/-- The op field counts the whole bytes of the word (30_encoding.md R71). -/
theorem opField_toNat (w : CmdWord) : (opField w).toNat = w.toNat / 0x100 := by
  have := w.isLt
  rw [opField, BitVec.extractLsb'_toNat, Nat.shiftRight_eq_div_pow]
  omega

/-- What the decoder answers on each of the four ranges of words (30_encoding.md R72 to R75). -/
theorem decode_ranges (w : CmdWord) :
    (w.toNat < 0x100 ∧ decode w = .ok (.idle (dataField w))) ∨
    (0x100 ≤ w.toNat ∧ w.toNat < 0x200 ∧ decode w = .ok (.byte (dataField w))) ∨
    (0x200 ≤ w.toNat ∧ w.toNat < 0x300 ∧ decode w = .ok (.reset (dataField w))) ∨
    (0x300 ≤ w.toNat ∧ decode w = .error (.reservedOp (dataField w))) := by
  have hop := opField_toNat w
  rcases decode_cases w with ⟨h, e⟩ | ⟨h, e⟩ | ⟨h, e⟩ | ⟨h, e⟩ <;> rw [h] at hop
  · exact .inl ⟨by bv_omega, e⟩
  · exact .inr (.inl ⟨by bv_omega, by bv_omega, e⟩)
  · exact .inr (.inr (.inl ⟨by bv_omega, by bv_omega, e⟩))
  · exact .inr (.inr (.inr ⟨by bv_omega, e⟩))

/-- A hard reset and a RESET word perform the same reset procedure (70_reset_and_hazards.md R183). -/
theorem step_of_reset {s : State} {e : EdgeInput} {rest : List EdgeInput} (hi : s.inputs = e :: rest)
    (h : e.rst = true ∨ (0x200 ≤ e.cmd.toNat ∧ e.cmd.toNat < 0x300)) :
    step s = .next (s.beginEdge rest).fullReset := by
  rcases hr : e.rst with _ | _
  · obtain ⟨hge, hlt⟩ := h.resolve_left (by simp [hr])
    rcases decode_ranges e.cmd with ⟨_, _⟩ | ⟨_, _, _⟩ | ⟨_, _, hd⟩ | ⟨_, _⟩
    · omega
    · omega
    · exact step_of_decode hi hr hd
    · omega
  · exact step_of_rst hi hr

/-- What an edge that completes has performed, told by its input: a reset, IDLE or BYTE. -/
theorem step_next_ranges {s t : State} {e : EdgeInput} {rest : List EdgeInput} (hi : s.inputs = e :: rest)
    (h : step s = .next t) :
    ((e.rst = true ∨ 0x200 ≤ e.cmd.toNat) ∧ t = (s.beginEdge rest).fullReset) ∨
    (e.rst = false ∧ e.cmd.toNat < 0x100 ∧ t = (s.beginEdge rest).noResult) ∨
    (e.rst = false ∧ 0x100 ≤ e.cmd.toNat ∧ e.cmd.toNat < 0x200 ∧
      execByte (dataField e.cmd) (s.beginEdge rest) = .next t) := by
  rcases hr : e.rst with _ | _
  · rcases decode_ranges e.cmd with ⟨hlt, hd⟩ | ⟨hge, hlt, hd⟩ | ⟨hge, _, hd⟩ | ⟨_, hd⟩
    · rw [step_of_decode hi hr hd] at h
      cases h
      exact .inr (.inl ⟨rfl, hlt, rfl⟩)
    · rw [step_of_decode hi hr hd] at h
      exact .inr (.inr ⟨rfl, hge, hlt, h⟩)
    · rw [step_of_decode hi hr hd] at h
      cases h
      exact .inl ⟨.inr hge, rfl⟩
    · simp [step, hi, performEdge, hr, hd] at h
  · rw [step_of_rst hi hr] at h
    cases h
    exact .inl ⟨.inl rfl, rfl⟩

/-! ### The resets -/

/-- Settles O15: both resets perform the reset procedure, which needs only a properly stored buffer. -/
theorem anyResetEstablishesInvariant : Obligations.AnyResetEstablishesInvariant := by
  intro s e rest hst hi hreset
  exact ⟨_, step_of_reset hi hreset, State.fullReset_inv (s := s.beginEdge rest) hst⟩

/-- A reset instance is in the first row of R29, with no element of the buffer written. -/
theorem State.resetFor_inv (cap : Fin 257) : (State.resetFor cap).Inv :=
  ⟨⟨Memory.wf_nil, nofun⟩, State.payloadStored_of_cursor_zero rfl, ⟨rfl, rfl, rfl⟩, rfl⟩

/-- Settles O13: the default capacity is one of the capacities. -/
theorem resetStateMeetsInvariant : Obligations.ResetStateMeetsInvariant :=
  ⟨State.resetFor_inv Config.defaultCap, State.resetFor_inv⟩

@[simp] theorem State.resetFor_memRead (cap : Fin 257) (i : Nat) :
    (State.resetFor cap).memRead i = Config.powerOnByte i := rfl

@[simp] theorem State.fullReset_memRead (s : State) (i : Nat) : s.fullReset.memRead i = s.memRead i := rfl

/-- Settles O18: RESET and the hard reset both answer `fullReset`, and the fields of both reset states are read off. -/
theorem resetValues : Obligations.ResetValues := by
  refine ⟨rfl, fun cap => ?_, fun d s => ⟨s.fullReset, rfl, rfl, ?_⟩⟩
  · simp
  · simp

/-! ### The result register (10_state.md R27) -/

theorem Reason.ne_noReason_iff (x : Reason) : x ≠ .noReason ↔ x = .payloadTooLarge ∨ x = .unexpectedByte := by
  cases x <;> decide

/-- A byte reports Continue or FrameReady without a reason, or FrameRejected with one (41_accept_byte.md R122). -/
theorem execByte_result {b : Byte} {s t : State} (h : execByte b s = .next t) :
    ((t.res = .cont ∨ t.res = .frameReady) ∧ t.reason = .noReason) ∨
    (t.res = .frameRejected ∧ t.reason ≠ .noReason) := by
  have hstart (u : State) : (acceptStart b u).res = .cont ∧ (acceptStart b u).reason = .noReason := by
    rcases acceptStart_cases b u with ⟨_, e⟩ | ⟨_, e⟩ <;> rw [e] <;> exact ⟨rfl, rfl⟩
  rcases execByte_cases h with ⟨_, rfl⟩ | ⟨_, rfl⟩ | ⟨_, _, rfl⟩ | ⟨_, _, _, rfl⟩ | ⟨_, rfl⟩ | ⟨_, rfl⟩ | ⟨_, rfl⟩
  · exact .inl ((hstart s).imp_left .inl)
  · exact .inl ⟨.inl rfl, rfl⟩
  · exact .inr ⟨rfl, nofun⟩
  · exact .inl ⟨.inl rfl, rfl⟩
  · exact .inl ⟨.inl rfl, rfl⟩
  · rcases acceptEnd_cases b s with ⟨_, e⟩ | ⟨_, e⟩ <;> rw [e]
    · exact .inl ⟨.inr rfl, rfl⟩
    · exact .inr ⟨rfl, nofun⟩
  · exact .inl ((hstart s.resetCore).imp_left .inl)

/-- The result register after an edge, told by its input. -/
theorem step_result {s t : State} {e : EdgeInput} {rest : List EdgeInput} (hi : s.inputs = e :: rest)
    (h : step s = .next t) :
    ((e.rst = true ∨ e.cmd.toNat < 0x100 ∨ 0x200 ≤ e.cmd.toNat) ∧ t.res = .none ∧ t.reason = .noReason) ∨
    ((e.rst = false ∧ 0x100 ≤ e.cmd.toNat ∧ e.cmd.toNat < 0x200) ∧
      (((t.res = .cont ∨ t.res = .frameReady) ∧ t.reason = .noReason) ∨
        (t.res = .frameRejected ∧ t.reason ≠ .noReason))) := by
  rcases step_next_ranges hi h with ⟨hreset, rfl⟩ | ⟨_, hlt, rfl⟩ | ⟨hr, hge, hlt, hx⟩
  · exact .inl ⟨hreset.imp_right .inr, rfl, rfl⟩
  · exact .inl ⟨.inr (.inl hlt), rfl, rfl⟩
  · exact .inr ⟨⟨hr, hge, hlt⟩, execByte_result hx⟩

/-- A reason comes exactly with FrameRejected (10_state.md R27). -/
theorem step_rejected_iff {s t : State} (h : step s = .next t) : t.res = .frameRejected ↔ t.reason ≠ .noReason := by
  obtain ⟨e, rest, hi, _⟩ := step_next_cases h
  rcases step_result hi h with ⟨_, hres, hreason⟩ | ⟨_, ⟨hres | hres, hreason⟩ | ⟨hres, hreason⟩⟩ <;>
    simp [hres, hreason]

/-- Settles O34: the first two clauses both say that a reason comes exactly with FrameRejected, and the ranges of the
last two exclude each other. -/
theorem resultRegisterAfterEveryEdge : Obligations.ResultRegisterAfterEveryEdge := by
  refine ⟨fun s t e rest hi h => ?_, rfl, rfl⟩
  have hiff := step_rejected_iff h
  refine ⟨hiff.trans t.reason.ne_noReason_iff, (not_congr hiff).trans not_not, fun hnone => ?_, fun hr hge hlt => ?_⟩
  · rcases step_result hi h with ⟨_, hres, _⟩ | ⟨⟨hr, hge, hlt⟩, _⟩
    · exact hres
    · simp only [hr, Bool.false_eq_true, false_or] at hnone
      omega
  · rcases step_result hi h with ⟨hnone, _⟩ | ⟨_, ⟨hres | hres, _⟩ | ⟨hres, _⟩⟩
    · simp only [hr, Bool.false_eq_true, false_or] at hnone
      omega
    · exact .inl hres
    · exact .inr (.inl hres)
    · exact .inr (.inr hres)

end Sys2Proof.Machine
end

section
/-! The payload buffer and the order of bytes (20_memory.md): which edge writes the buffer, what stale bytes, later inputs and
the value of a payload byte leave alone, and the bytes of a frame stored in order. -/

namespace Sys2Proof.Machine

/-! ### The edge: the word of BYTE, and the refused edges -/

/-- The word `0x100 + b` is the packed word of op 01 (30_encoding.md R73). -/
theorem byteWord_eq_packWord (b : Byte) : byteWord b = packWord 1 b := by
  revert b
  decide

@[simp] theorem decode_byteWord (b : Byte) : decode (byteWord b) = .ok (.byte b) := by
  rw [byteWord_eq_packWord]
  simp [decode]

/-- A word of op 01 is the BYTE of its data field (30_encoding.md R71, R73). -/
theorem byteWord_dataField {w : CmdWord} (hge : 0x100 ≤ w.toNat) (hlt : w.toNat < 0x200) :
    byteWord (dataField w) = w := by
  have hop : opField w = 1 := BitVec.eq_of_toNat_eq (by
    rw [opField_toNat]
    change w.toNat / 0x100 = 1
    omega)
  rw [byteWord_eq_packWord, ← hop, packWord_fields]

/-- At an edge that presents `0x100 + b` the step is BYTE b. -/
theorem step_of_byteWord {s : State} {b : Byte} {rest : List EdgeInput} (hi : s.inputs = ⟨false, byteWord b⟩ :: rest) :
    step s = execByte b (s.beginEdge rest) :=
  step_of_decode hi rfl (decode_byteWord b)

theorem step_of_no_input {s : State} (hi : s.inputs = []) : step s = .refused .noInput := by
  simp [step, hi]

/-- An edge with `rst = 0` refuses a reserved word (30_encoding.md R75). -/
theorem step_of_reserved {s : State} {e : EdgeInput} {rest : List EdgeInput} {d : Byte} (hi : s.inputs = e :: rest)
    (hr : e.rst = false) (hd : decode e.cmd = .error (.reservedOp d)) : step s = .refused (.reservedCommand d) := by
  simp [step, hi, performEdge, hr, hd]

/-! ### BYTE in ReadingPayload (41_accept_byte.md R116, R117; 20_memory.md R52) -/

/-- BYTE performs a payload write: in ReadingPayload, with a byte still due of a length within the capacity
(20_memory.md R52). -/
abbrev State.StoresPayload (s : State) : Prop :=
  s.phase = .readingPayload ∧ s.declLen.toNat ≤ s.cap.val ∧ s.cursor.toNat < s.declLen.toNat

theorem execByte_of_storesPayload {s : State} (h : s.StoresPayload) (b : Byte) :
    execByte b s = .next ((s.append b).emit .cont) := by
  obtain ⟨hp, hcap, hdue⟩ := h
  simp [execByte, hp, acceptPayload, State.exceedsCap, State.payloadDue, hcap.not_gt, hdue]

theorem execByte_of_exceedsCap {s : State} (hp : s.phase = .readingPayload) (hcap : s.cap.val < s.declLen.toNat)
    (b : Byte) : execByte b s = .next (s.reject .payloadTooLarge) := by
  simp [execByte, hp, acceptPayload, State.exceedsCap, hcap]

theorem execByte_of_pastDeclared {s : State} (hp : s.phase = .readingPayload) (hcap : s.declLen.toNat ≤ s.cap.val)
    (hpast : s.declLen.toNat ≤ s.cursor.toNat) (b : Byte) : execByte b s = .refused .payloadPastDeclared := by
  simp [execByte, hp, acceptPayload, State.exceedsCap, State.payloadDue, hcap.not_gt, hpast.not_gt]

/-- The three situations of ReadingPayload. -/
theorem State.readingPayload_cases {s : State} (hp : s.phase = .readingPayload) :
    s.cap.val < s.declLen.toNat ∨ s.StoresPayload ∨
      (s.declLen.toNat ≤ s.cap.val ∧ s.declLen.toNat ≤ s.cursor.toNat) := by
  rcases Nat.lt_or_ge s.cap.val s.declLen.toNat with hcap | hcap
  · exact .inl hcap
  · rcases Nat.lt_or_ge s.cursor.toNat s.declLen.toNat with hdue | hpast
    · exact .inr (.inl ⟨hp, hcap, hdue⟩)
    · exact .inr (.inr ⟨hcap, hpast⟩)

/-- Settles O28: outside ReadingPayload BYTE always answers a next state, and in ReadingPayload it does in every situation
but the named one. -/
theorem byteRefusesOnlyPastDeclared : Obligations.ByteRefusesOnlyPastDeclared := by
  intro b s
  refine ⟨fun ⟨hp, hcap, hpast⟩ => execByte_of_pastDeclared hp hcap hpast b, fun h => ?_⟩
  rcases hp : s.phase
  case readingPayload =>
    rcases State.readingPayload_cases hp with hcap | hst | hpast
    · exact ⟨_, execByte_of_exceedsCap hp hcap b⟩
    · exact ⟨_, execByte_of_storesPayload hst b⟩
    · exact absurd ⟨hp, hpast⟩ h
  all_goals exact ⟨_, by simp only [exec, execByte, hp]; rfl⟩

/-! ### Answers that differ in their next state only -/

/-- The answer with its next state, where it gives one, changed by `f`. -/
def mapNext (f : State → State) : Answer → Answer
  | .next t => .next (f t)
  | .fault x => .fault x
  | .refused r => .refused r

@[simp] theorem mapNext_next (f : State → State) (t : State) : mapNext f (.next t) = .next (f t) := rfl
@[simp] theorem mapNext_refused (f : State → State) (r : Refusal) : mapNext f (.refused r) = .refused r := rfl

/-! ### Later inputs (20_memory.md R57, R59) -/

theorem exec_withInputs (i : Instr) (s : State) (ins : List EdgeInput) :
    exec i { s with inputs := ins } = mapNext (fun t => { t with inputs := ins }) (exec i s) := by
  cases i with
  | idle d => rfl
  | reset d => rfl
  | byte b =>
    refine (execByte_inputs b s ins).trans ?_
    show _ = mapNext _ (execByte b s)
    cases execByte b s <;> rfl

theorem performEdge_withInputs (e : EdgeInput) (s : State) (ins : List EdgeInput) :
    performEdge e { s with inputs := ins } = mapNext (fun t => { t with inputs := ins }) (performEdge e s) := by
  unfold performEdge
  rcases e.rst with _ | _
  · rcases decode e.cmd with ⟨⟨d⟩⟩ | i
    · rfl
    · exact exec_withInputs i s ins
  · rfl

/-- A step sees its first input only: other inputs after it are left in place of those. -/
theorem step_withLaterInputs (s : State) (e : EdgeInput) (later other : List EdgeInput) :
    step { s with inputs := e :: other } =
      mapNext (fun t => { t with inputs := other }) (step { s with inputs := e :: later }) :=
  performEdge_withInputs e (State.beginEdge later { s with inputs := e :: later }) other

theorem inputs_of_step {s t : State} {e : EdgeInput} {later : List EdgeInput} (hi : s.inputs = e :: later)
    (h : step s = .next t) : t.inputs = later := by
  obtain ⟨_, _, e', hi'⟩ := stepTakesOneInput s t h
  exact (List.cons.inj (hi.symm.trans hi')).2.symm

theorem observe_succ_of_refused {s : State} {r : Refusal} (h : step s = .refused r) (k : Nat) :
    observe (k + 1) s = none := by
  simp only [observe, h]

/-- A chunk of words runs as it does alone, whatever follows it. -/
theorem observe_presented_append (s : State) (ws : List CmdWord) (after : List EdgeInput) :
    observe ws.length { s with inputs := presented ws ++ after } =
      (observe ws.length { s with inputs := presented ws }).map fun r => (r.1, { r.2 with inputs := after }) := by
  induction ws generalizing s with
  | nil => rfl
  | cons w ws ih =>
    have hstep := step_withLaterInputs s ⟨false, w⟩ (presented ws) (presented ws ++ after)
    rcases halone : step { s with inputs := ⟨false, w⟩ :: presented ws } with t | f | r
    · have hti : t.inputs = presented ws := inputs_of_step rfl halone
      have ht : { t with inputs := presented ws } = t := by rw [← hti]
      rw [halone, mapNext_next] at hstep
      rw [List.length_cons, observe_succ_of_step (s := { s with inputs := presented (w :: ws) ++ after }) hstep, ih t, ht,
        observe_succ_of_step (s := { s with inputs := presented (w :: ws) }) halone]
      cases observe ws.length t <;> rfl
    · cases f
    · rw [halone, mapNext_refused] at hstep
      rw [List.length_cons, observe_succ_of_refused (s := { s with inputs := presented (w :: ws) ++ after }) hstep,
        observe_succ_of_refused (s := { s with inputs := presented (w :: ws) }) halone]
      rfl

/-- Settles O17: no edge sees the inputs after its own, and the chunk is an induction over its words. -/
theorem laterInputsChangeNothing : Obligations.LaterInputsChangeNothing := by
  refine ⟨fun s e later other => ?_, fun s ws more rest => ?_⟩
  · rw [step_withLaterInputs s e later other]
    refine ⟨fun t ht => ⟨inputs_of_step rfl ht, ?_⟩, fun r hr => ?_⟩
    · rw [ht, mapNext_next]
    · rw [hr, mapNext_refused]
  · have happ : presented (ws ++ more) ++ rest = presented ws ++ (presented more ++ rest) := by simp [presented]
    rw [happ, observe_presented_append]

/-! ### The buffer after BYTE (20_memory.md R52, R53, R62) -/

/-- The buffer after BYTE b in the state `s`, had it been `m` before. -/
def State.bufAfterByte (b : Byte) (s : State) (m : Memory) : Memory :=
  if s.StoresPayload then m.write s.cursor.toNat b else m

theorem State.bufAfterByte_of_stores {s : State} (h : s.StoresPayload) (b : Byte) (m : Memory) :
    s.bufAfterByte b m = m.write s.cursor.toNat b := if_pos h

theorem State.bufAfterByte_of_not_stores {s : State} (h : ¬ s.StoresPayload) (b : Byte) (m : Memory) :
    s.bufAfterByte b m = m := if_neg h

/-- Only the element at the cursor can change. -/
theorem State.read_bufAfterByte {s : State} {i : Nat} (hi : i ≠ s.cursor.toNat) (b : Byte) (m : Memory) :
    (s.bufAfterByte b m).read i = m.read i := by
  unfold State.bufAfterByte
  split
  · rw [Memory.read_write, if_neg hi.symm]
  · rfl

/-- The state with another buffer. -/
def State.withBuf (m : Memory) (s : State) : State := { s with buf := m }

@[simp] theorem State.withBuf_phase (m : Memory) (s : State) : (s.withBuf m).phase = s.phase := rfl

theorem acceptStart_withBuf (b : Byte) (s : State) (m : Memory) :
    acceptStart b (s.withBuf m) = (acceptStart b s).withBuf m := by
  unfold acceptStart
  split <;> rfl

theorem acceptEnd_withBuf (b : Byte) (s : State) (m : Memory) :
    acceptEnd b (s.withBuf m) = (acceptEnd b s).withBuf m := by
  unfold acceptEnd
  split <;> rfl

/-- BYTE reads no element of the buffer: on another buffer it answers the same but for what that buffer becomes. -/
theorem execByte_withBuf (b : Byte) (s : State) (m : Memory) :
    execByte b (s.withBuf m) = mapNext (State.withBuf (s.bufAfterByte b m)) (execByte b s) := by
  by_cases hst : s.StoresPayload
  · rw [execByte_of_storesPayload hst, execByte_of_storesPayload (s := s.withBuf m) hst,
      State.bufAfterByte_of_stores hst]
    rfl
  · rw [State.bufAfterByte_of_not_stores hst]
    rcases hp : s.phase
    case readingPayload =>
      rcases State.readingPayload_cases hp with hcap | hst' | ⟨hcap, hpast⟩
      · rw [execByte_of_exceedsCap hp hcap, execByte_of_exceedsCap (s := s.withBuf m) hp hcap]
        rfl
      · exact absurd hst' hst
      · rw [execByte_of_pastDeclared hp hcap hpast, execByte_of_pastDeclared (s := s.withBuf m) hp hcap hpast,
          mapNext_refused]
    all_goals simp only [execByte, State.withBuf_phase, hp, mapNext_next]
    case awaitingStart => rw [acceptStart_withBuf]
    case awaitingEnd => rw [acceptEnd_withBuf]
    case complete | error => rw [← acceptStart_withBuf]; rfl
    all_goals rfl

/-- What the buffer of a completed BYTE holds. -/
theorem execByte_buf {b : Byte} {s t : State} (h : execByte b s = .next t) : t.buf = s.bufAfterByte b s.buf := by
  have hsame : execByte b s = _ := execByte_withBuf b s s.buf
  rw [h, mapNext_next] at hsame
  injection hsame with ht
  exact congrArg State.buf ht

/-- Another byte in ReadingPayload differs only in what it stores. -/
theorem execByte_otherByte {s : State} (hp : s.phase = .readingPayload) (b c : Byte) :
    execByte c s = mapNext (State.withBuf (s.bufAfterByte c s.buf)) (execByte b s) := by
  rcases State.readingPayload_cases hp with hcap | hst | ⟨hcap, hpast⟩
  · rw [execByte_of_exceedsCap hp hcap, execByte_of_exceedsCap hp hcap,
      State.bufAfterByte_of_not_stores fun hst => hst.2.1.not_gt hcap]
    rfl
  · rw [execByte_of_storesPayload hst, execByte_of_storesPayload hst, State.bufAfterByte_of_stores hst]
    rfl
  · rw [execByte_of_pastDeclared hp hcap hpast, execByte_of_pastDeclared hp hcap hpast, mapNext_refused]

/-- Settles O40: the other byte is stored in the same element, or nowhere. -/
theorem payloadValueSteersNothing : Obligations.PayloadValueSteersNothing := by
  intro b c s t hp h
  have hb : execByte b s = .next t := h
  refine ⟨s.bufAfterByte c s.buf, ?_, fun i hi => ?_⟩
  · show execByte c s = _
    rw [execByte_otherByte hp b c, hb]
    rfl
  · rw [execByte_buf hb, State.read_bufAfterByte hi, State.read_bufAfterByte hi]

/-- Settles O38: a reset and IDLE leave the buffer, and a BYTE that stores is one in ReadingPayload with a byte due. -/
theorem onlyPayloadBytesWriteBuffer : Obligations.OnlyPayloadBytesWriteBuffer := by
  intro s t h
  obtain ⟨⟨rst, w⟩, rest, hi, _⟩ := step_next_cases h
  rcases step_next_ranges hi h with ⟨_, rfl⟩ | ⟨_, _, rfl⟩ | ⟨hr, hge, hlt, hx⟩
  · exact .inl fun _ => rfl
  · exact .inl fun _ => rfl
  · have hbuf := execByte_buf hx
    by_cases hst : (s.beginEdge rest).StoresPayload
    · rw [State.bufAfterByte_of_stores hst] at hbuf
      obtain ⟨hp, hcap, hdue⟩ := hst
      refine .inr ⟨dataField w, ?_, hp, hcap, hdue, hdue.trans_le hcap, fun i => ?_⟩
      · rw [inputs_of_step hi h, byteWord_dataField hge hlt, hi]
        cases hr
        rfl
      · rw [hbuf, Memory.read_write]
        exact if_congr eq_comm rfl rfl
    · rw [State.bufAfterByte_of_not_stores hst] at hbuf
      exact .inl fun i => by rw [hbuf]; rfl

/-! ### Stale bytes (20_memory.md R53; 10_state.md R26) -/

/-- The buffer `m` has the bytes of this frame that `s` has stored. -/
def State.AgreesBelowCursor (s : State) (m : Memory) : Prop := ∀ i, i < s.cursor.toNat → m.read i = s.buf.read i

/-- `a'` is the answer `a` but for stale bytes. -/
def SameButStale (a a' : Answer) : Prop :=
  ∃ m, a' = mapNext (State.withBuf m) a ∧ ∀ t, a = .next t → t.AgreesBelowCursor m

theorem SameButStale.next {t : State} {m : Memory} (h : t.AgreesBelowCursor m) :
    SameButStale (.next t) (.next (t.withBuf m)) :=
  ⟨m, rfl, fun _ ht => by cases ht; exact h⟩

theorem SameButStale.refused (r : Refusal) : SameButStale (.refused r) (.refused r) := ⟨[], rfl, nofun⟩

/-- With no byte of a frame received, every byte is stale. -/
theorem State.agreesBelowCursor_of_cursor_zero {s : State} (h : s.cursor = 0) (m : Memory) : s.AgreesBelowCursor m := by
  intro i hi
  simp [h] at hi

/-- A BYTE that stores nothing leaves the cursor or clears it. -/
theorem execByte_cursor_of_not_stores {b : Byte} {s t : State} (h : execByte b s = .next t) (hst : ¬ s.StoresPayload) :
    t.cursor = s.cursor ∨ t.cursor = 0 := by
  rcases execByte_cases h with ⟨_, rfl⟩ | ⟨_, rfl⟩ | ⟨_, _, rfl⟩ | ⟨hp, hcap, hdue, _⟩ | ⟨_, rfl⟩ | ⟨_, rfl⟩ | ⟨_, rfl⟩
  · rcases acceptStart_cases b s with ⟨_, e⟩ | ⟨_, e⟩ <;> simp [e]
  · exact .inr rfl
  · exact .inl rfl
  · exact absurd ⟨hp, hcap, hdue⟩ hst
  · exact .inl rfl
  · rcases acceptEnd_cases b s with ⟨_, e⟩ | ⟨_, e⟩ <;> simp [e]
  · rcases acceptStart_cases b s.resetCore with ⟨_, e⟩ | ⟨_, e⟩ <;> simp [e]

/-- Two buffers that agree below the cursor do so after BYTE too: a stored byte goes into both. -/
theorem execByte_agrees {b : Byte} {s t : State} {m : Memory} (hm : s.AgreesBelowCursor m)
    (h : execByte b s = .next t) : t.AgreesBelowCursor (s.bufAfterByte b m) := by
  have hbuf := execByte_buf h
  by_cases hst : s.StoresPayload
  · have hcur : t.cursor = s.cursor + 1 := by
      rw [execByte_of_storesPayload hst] at h
      cases h
      rfl
    intro i hi
    rw [hcur, cursor_add_one hst.2.2] at hi
    rw [hbuf, State.bufAfterByte_of_stores hst, State.bufAfterByte_of_stores hst, Memory.read_write, Memory.read_write]
    split
    · rfl
    · exact hm i (by omega)
  · rw [State.bufAfterByte_of_not_stores hst] at hbuf ⊢
    rcases execByte_cursor_of_not_stores h hst with hcur | hcur
    · unfold State.AgreesBelowCursor
      rw [hcur, hbuf]
      exact hm
    · exact State.agreesBelowCursor_of_cursor_zero hcur m

theorem exec_sameButStale (i : Instr) {s : State} {m : Memory} (hm : s.AgreesBelowCursor m) :
    SameButStale (exec i s) (exec i (s.withBuf m)) := by
  cases i with
  | idle d => exact SameButStale.next (t := s.noResult) hm
  | reset d => exact SameButStale.next (State.agreesBelowCursor_of_cursor_zero (s := s.fullReset) rfl m)
  | byte b => exact ⟨s.bufAfterByte b m, execByte_withBuf b s m, fun _ => execByte_agrees hm⟩

theorem step_sameButStale {s : State} {m : Memory} (hm : s.AgreesBelowCursor m) :
    SameButStale (step s) (step (s.withBuf m)) := by
  rcases step_cases s with ⟨hi, hs⟩ | ⟨e, rest, hi, ⟨hr, hs⟩ | ⟨hr, i, hd, hs⟩ | ⟨hr, d, hd, hs⟩⟩ <;> rw [hs]
  · rw [step_of_no_input (s := s.withBuf m) hi]
    exact .refused _
  · rw [step_of_rst (s := s.withBuf m) hi hr]
    exact SameButStale.next (State.agreesBelowCursor_of_cursor_zero (s := (s.beginEdge rest).fullReset) rfl m)
  · rw [step_of_decode (s := s.withBuf m) hi hr hd]
    exact exec_sameButStale i (s := s.beginEdge rest) hm
  · rw [step_of_reserved (s := s.withBuf m) hi hr hd]
    exact .refused _

/-- Settles O39: no command reads the buffer, so the two steps answer the same, and a byte stored goes into both. -/
theorem staleBytesSteerNothing : Obligations.StaleBytesSteerNothing := by
  intro s m hm
  obtain ⟨m', hstep, hagree⟩ := step_sameButStale hm
  refine ⟨fun t ht => ⟨m', ?_, hagree t ht⟩, fun r hr => ?_⟩
  · rw [ht] at hstep
    exact hstep
  · rw [hr] at hstep
    exact hstep

/-! ### The payload of a frame (20_memory.md R54) -/

/-- Of a frame of length `n` within the capacity the data bytes `pre` have been received: the rows ReadingPayload and
ReadingChecksum of 10_state.md R29, with the bytes in order. -/
structure State.PayloadReceived (n : Byte) (pre : List Byte) (s : State) : Prop where
  fits : n.toNat ≤ s.cap.val
  declLen : s.declLen = n
  cursor : s.cursor.toNat = pre.length
  phase : s.phase = if pre.length = n.toNat then .readingChecksum else .readingPayload
  stored : ∀ i, i < pre.length → s.buf.read i = pre[i]?

/-- While bytes are due, the next one is stored. -/
theorem State.PayloadReceived.storesPayload {n : Byte} {pre : List Byte} {s : State} (h : s.PayloadReceived n pre)
    (hlt : pre.length < n.toNat) : s.StoresPayload := by
  refine ⟨by rw [h.phase, if_neg hlt.ne], ?_, ?_⟩
  · rw [h.declLen]
    exact h.fits
  · rw [h.declLen, h.cursor]
    exact hlt

/-- R116 of 41_accept_byte.md: the byte is the next one of the frame. -/
theorem execByte_payload {n : Byte} {pre : List Byte} {s : State} (h : s.PayloadReceived n pre)
    (hlt : pre.length < n.toNat) (b : Byte) : ∃ t, execByte b s = .next t ∧ t.PayloadReceived n (pre ++ [b]) := by
  have hst := h.storesPayload hlt
  have hcur : (s.cursor + 1).toNat = (pre ++ [b]).length := by
    rw [cursor_add_one hst.2.2, h.cursor, List.length_append, List.length_singleton]
  refine ⟨_, execByte_of_storesPayload hst b, h.fits, h.declLen, hcur, ?_, fun i hi => ?_⟩
  · have hlast : s.cursor + 1 = s.declLen ↔ (pre ++ [b]).length = n.toNat := by
      rw [← hcur, h.declLen, BitVec.toNat_inj]
    simp only [State.emit_phase, State.append_phase, hlast]
  · rw [State.emit_buf, State.append_buf, Memory.read_write, h.cursor]
    rcases Nat.lt_or_ge i pre.length with hold | hnew
    · rw [if_neg hold.ne', h.stored i hold, List.getElem?_append_left hold]
    · obtain rfl : i = pre.length := by simp at hi; omega
      simp

/-- A BYTE that completes is observed first. -/
theorem observe_succ_of_byte {s t : State} {b : Byte} {bs : List Byte} {rest : List EdgeInput}
    (hi : s.inputs = presentedBytes (b :: bs) ++ rest)
    (h : execByte b (s.beginEdge (presentedBytes bs ++ rest)) = .next t) (k : Nat) :
    observe (k + 1) s = (observe k t).map fun r => (t.observation :: r.1, r.2) :=
  observe_succ_of_step ((step_of_byteWord hi).trans h) k

/-- Data bytes that are due are received one an edge, in order. -/
theorem observe_payload {n : Byte} {pre data : List Byte} {rest : List EdgeInput} {s : State}
    (h : s.PayloadReceived n pre) (hlen : pre.length + data.length ≤ n.toNat)
    (hi : s.inputs = presentedBytes data ++ rest) :
    ∃ obs t, observe data.length s = some (obs, t) ∧ t.inputs = rest ∧ t.PayloadReceived n (pre ++ data) := by
  induction data generalizing pre s with
  | nil => exact ⟨[], s, rfl, hi, by rwa [List.append_nil]⟩
  | cons b bs ih =>
    rw [List.length_cons] at hlen
    have hlt : pre.length < n.toNat := by omega
    have hbegin : (s.beginEdge (presentedBytes bs ++ rest)).PayloadReceived n pre :=
      ⟨h.fits, h.declLen, h.cursor, h.phase, h.stored⟩
    obtain ⟨u, hu, hrec⟩ := execByte_payload hbegin hlt b
    obtain ⟨_, hui, _⟩ := exec_keeps_own_fields (i := .byte b) hu
    obtain ⟨obs, t, hobs, hti, ht⟩ := ih hrec (by simp; omega) hui
    refine ⟨u.observation :: obs, t, ?_, hti, by rwa [List.append_assoc] at ht⟩
    rw [List.length_cons, observe_succ_of_byte hi hu, hobs]
    rfl

/-- STX starts a frame in AwaitingStart and in the terminal phases (41_accept_byte.md R111, R112). -/
theorem execByte_stx {s : State} (hp : s.phase = .awaitingStart ∨ s.phase = .complete ∨ s.phase = .error) :
    ∃ t, execByte stx s = .next t ∧ t.phase = .readingLength := by
  rcases hp with hp | hp | hp <;> exact ⟨_, by simp only [execByte, hp]; rfl, rfl⟩

/-- A nonzero length within the capacity opens the payload (41_accept_byte.md R114). -/
theorem execByte_length {n : Byte} {s : State} (hp : s.phase = .readingLength) (hpos : 0 < n.toNat)
    (hcap : n.toNat ≤ s.cap.val) : ∃ t, execByte n s = .next t ∧ t.PayloadReceived n [] := by
  refine ⟨acceptLength n s, by simp only [execByte, hp], ?_⟩
  rcases acceptLength_cases n s with ⟨rfl, _⟩ | ⟨_, e⟩
  · exact absurd hpos (by decide)
  · rw [e]
    exact ⟨hcap, rfl, rfl, (if_neg hpos.ne).symm, nofun⟩

/-- Settles O47: STX and the length open the payload with no byte received, and the data bytes follow by induction. -/
theorem payloadStoredInOrder : Obligations.PayloadStoredInOrder := by
  intro s n data rest hp hpos hcap hlen hi
  obtain ⟨u, hu, hup⟩ := execByte_stx (s := s.beginEdge (presentedBytes (n :: data) ++ rest)) hp
  obtain ⟨hucap, hui, _⟩ := exec_keeps_own_fields (i := .byte stx) hu
  obtain ⟨v, hv, hrec⟩ := execByte_length (s := u.beginEdge (presentedBytes data ++ rest)) hup hpos
    (hcap.trans_eq (congrArg Fin.val hucap.symm))
  obtain ⟨_, hvi, _⟩ := exec_keeps_own_fields (i := .byte n) hv
  obtain ⟨obs, t, hobs, hti, ht⟩ := observe_payload hrec (by simpa using hlen) hvi
  refine ⟨u.observation :: v.observation :: obs, t, ?_, hti, ht.declLen, ht.cursor, ht.phase, ht.stored⟩
  rw [observe_succ_of_byte hi hu, observe_succ_of_byte hui hv, hobs]
  rfl

end Sys2Proof.Machine
end

section
/-! The encoding and the refusals (30_encoding.md): the decoder by mask and by range, the assembler's words, the edges that
are refused, and the codes of the outputs. -/

namespace Sys2Proof.Machine

/-! ### The decoder (30_encoding.md R71 to R77) -/

theorem dataField_eq_setWidth (w : CmdWord) : dataField w = w.setWidth 8 :=
  BitVec.setWidth_eq_extractLsb' (by decide) |>.symm

/-- The mask of the opcode table keeps the op field (30_encoding.md R77). -/
theorem opField_and_mask (w : CmdWord) : opField (w &&& 0x300#10) = opField w := by
  have hmask : (0x300#10).extractLsb' 8 2 = BitVec.allOnes 2 := rfl
  rw [opField, BitVec.extractLsb'_and, hmask, BitVec.and_allOnes, opField]

/-- A word is the command of the match value of its row. -/
theorem opField_of_mask {w m : CmdWord} (h : w &&& 0x300#10 = m) : opField w = opField m := by
  rw [← h, opField_and_mask]

/-- Settles O3: the match value of each row has the op field of that row. -/
theorem decodeFollowsMatchAndMask : Obligations.DecodeFollowsMatchAndMask := by
  intro w
  refine ⟨fun h => ?_, fun h => ?_, fun h => ?_, fun h => ?_⟩ <;>
    rw [decode, opField_of_mask h, dataField_eq_setWidth] <;> rfl

/-- Settles O4: the word `0x100 + b` is packed from op 01 and `b`, and the meanings of IDLE and RESET read no operand. -/
theorem operandIsTheLowByte : Obligations.OperandIsTheLowByte :=
  ⟨decode_byteWord, fun _ _ => ⟨rfl, rfl⟩, rfl, rfl⟩

@[simp] theorem decode_encode (i : Instr) : decode (encode i) = .ok i := by
  cases i <;> simp [encode, decode]

/-- A word that decodes to a command is not reserved (30_encoding.md R75). -/
theorem legal_of_decode {w : CmdWord} {i : Instr} (h : decode w = .ok i) : w.legal = true := by
  refine decide_eq_true ?_
  rcases decode_ranges w with ⟨hlt, _⟩ | ⟨_, hlt, _⟩ | ⟨_, hlt, _⟩ | ⟨_, hd⟩
  · omega
  · omega
  · exact hlt
  · rw [hd] at h
    cases h

theorem encode_legal (i : Instr) : (encode i).legal = true := legal_of_decode (decode_encode i)

/-! ### The assembler (30_encoding.md R83, R84) -/

/-- The words of commands, before a stream that decodes, decode to those commands before the others. -/
theorem decodeStream_encodeStream_append (is : List Instr) {ws : List CmdWord} {prog : List Instr}
    (h : decodeStream ws = .ok prog) : decodeStream (encodeStream is ++ ws) = .ok (is ++ prog) := by
  induction is with
  | nil => exact h
  | cons i is ih =>
    show decodeStream (encode i :: (encodeStream is ++ ws)) = _
    simp [decodeStream, ih]

theorem encodeStream_legal (is : List Instr) : ∀ w ∈ encodeStream is, w.legal = true :=
  List.forall_mem_map.2 fun i _ => encode_legal i

/-- Lines assemble when the first keeps its bounds and the others assemble, to the words of the first before theirs. -/
theorem assemble_cons_eq_some {l : AsmLine} {ls : List AsmLine} {ws : List CmdWord} :
    assemble (l :: ls) = some ws ↔
      l.wf = true ∧ ∃ more, assemble ls = some more ∧ encodeStream l.expand ++ more = ws := by
  simp [assemble]

/-- Settles O6, by induction on the lines. -/
theorem assembledStreamsDecode : Obligations.AssembledStreamsDecode := by
  intro ls
  induction ls with
  | nil =>
    intro ws h
    cases h
    exact ⟨rfl, nofun, nofun⟩
  | cons l ls ih =>
    intro ws h
    obtain ⟨hwf, more, hmore, rfl⟩ := assemble_cons_eq_some.1 h
    obtain ⟨hdecode, hlegal, hbounds⟩ := ih more hmore
    exact ⟨decodeStream_encodeStream_append l.expand hdecode,
      List.forall_mem_append.2 ⟨encodeStream_legal l.expand, hlegal⟩, List.forall_mem_cons.2 ⟨hwf, hbounds⟩⟩

/-- A byte written as its number is that byte. -/
theorem ofNat_toNat_byte (b : Byte) : BitVec.ofNat 8 b.toNat = b := by simp

@[simp] theorem byteOf_toNat (b : Byte) : byteOf b.toNat = .byte b := congrArg Instr.byte (ofNat_toNat_byte b)

/-- The number of a byte is an `imm8` (30_encoding.md R83). -/
@[simp] theorem isImm8_toNat (b : Byte) : isImm8 b.toNat = true := decide_eq_true b.isLt

theorem expand_bytes (bs : List Byte) : AsmLine.expand (.bytes (bs.map BitVec.toNat)) = bs.map Instr.byte := by
  simp [AsmLine.expand]

theorem expand_frame (data : List Byte) (c : Byte) :
    AsmLine.expand (.frame (data.map BitVec.toNat) c.toNat) = frameCommands data c := by
  have hdata : (data.map BitVec.toNat).map (BitVec.ofNat 8) = data := by
    rw [List.map_map]
    exact List.map_id'' ofNat_toNat_byte data
  rw [AsmLine.expand, hdata, ofNat_toNat_byte]

/-- Of a frame of bytes only the length can break a bound. -/
theorem wf_frame (data : List Byte) (c : Byte) :
    AsmLine.wf (.frame (data.map BitVec.toNat) c.toNat) = true ↔ data.length ≤ 255 := by
  simp [AsmLine.wf]

/-- Settles O5: a byte written as its number is that byte and keeps its bound. -/
theorem pseudoInstructionsExpand : Obligations.PseudoInstructionsExpand := by
  refine ⟨rfl, rfl, expand_bytes, expand_frame, expand_frame [], fun _ => rfl, wf_frame, fun k => ?_⟩
  simp [AsmLine.wf]

/-! ### The refused edges (30_encoding.md R75; 20_memory.md R52; 70_reset_and_hazards.md R190) -/

theorem step_of_reservedWord {s : State} {w : CmdWord} {rest : List EdgeInput} (hi : s.inputs = ⟨false, w⟩ :: rest)
    (hw : 0x300 ≤ w.toNat) : step s = .refused (.reservedCommand (w.setWidth 8)) := by
  rcases decode_ranges w with ⟨_, _⟩ | ⟨_, _, _⟩ | ⟨_, _, _⟩ | ⟨_, hd⟩
  · omega
  · omega
  · omega
  · rw [dataField_eq_setWidth] at hd
    exact step_of_reserved hi rfl hd

/-- Settles O9: with `rst = 1` both words give the reset procedure. -/
theorem reservedWordRefusedUnlessReset : Obligations.ReservedWordRefusedUnlessReset := by
  intro s w rest hw
  refine ⟨fun hi => step_of_reservedWord hi hw, fun hi => ⟨?_, _, step_of_rst hi rfl⟩⟩
  rw [step_of_rst hi rfl, step_of_rst (s := { s with inputs := ⟨true, 0x000#10⟩ :: rest }) rfl rfl]
  rfl

/-- The next edge has `rst = 0` and a BYTE, in ReadingPayload with the cursor at or past a length within the capacity. -/
def State.BytePastDeclaredDue (s : State) : Prop :=
  (∃ b rest, s.inputs = ⟨false, byteWord b⟩ :: rest) ∧
    s.phase = .readingPayload ∧ s.declLen.toNat ≤ s.cap.val ∧ s.declLen.toNat ≤ s.cursor.toNat

/-- The refusal that the next edge must answer. No command is without its meaning. -/
def State.RefusalDue (s : State) : Refusal → Prop
  | .notModelled _ => False
  | .reservedCommand d => ∃ w rest, s.inputs = ⟨false, w⟩ :: rest ∧ 0x300 ≤ w.toNat ∧ w.setWidth 8 = d
  | .noInput => s.inputs = []
  | .payloadPastDeclared => s.BytePastDeclaredDue

/-- The invariant has a byte due throughout ReadingPayload (10_state.md R29). -/
theorem State.Inv.not_bytePastDeclaredDue {s : State} (h : s.Inv) : ¬ s.BytePastDeclaredDue := by
  rintro ⟨_, hp, _, hpast⟩
  obtain ⟨hdue, _⟩ := (State.row_readingPayload hp).1 h.row
  exact hpast.not_gt hdue

/-- A refusal that is due is answered. -/
theorem step_of_refusalDue {s : State} {r : Refusal} (h : s.RefusalDue r) : step s = .refused r := by
  cases r with
  | notModelled _ => exact h.elim
  | reservedCommand d =>
    obtain ⟨w, rest, hi, hw, rfl⟩ := h
    exact step_of_reservedWord hi hw
  | noInput => exact step_of_no_input h
  | payloadPastDeclared =>
    obtain ⟨⟨b, rest, hi⟩, hp, hcap, hpast⟩ := h
    rw [step_of_byteWord hi]
    exact execByte_of_pastDeclared (s := s.beginEdge rest) hp hcap hpast b

/-- A step completes unless a refusal is due. -/
theorem refusalDue_or_step_next (s : State) : (∃ r, s.RefusalDue r) ∨ ∃ t, step s = .next t := by
  rcases hi : s.inputs with _ | ⟨⟨rst, w⟩, rest⟩
  · exact .inl ⟨.noInput, hi⟩
  rcases rst with _ | _
  · rcases decode_ranges w with ⟨_, hd⟩ | ⟨hge, hlt, _⟩ | ⟨_, _, hd⟩ | ⟨hge, _⟩
    · exact .inr ⟨_, step_of_decode hi rfl hd⟩
    · rw [← byteWord_dataField hge hlt] at hi
      by_cases hpast : s.phase = .readingPayload ∧ s.declLen.toNat ≤ s.cap.val ∧ s.declLen.toNat ≤ s.cursor.toNat
      · exact .inl ⟨.payloadPastDeclared, ⟨_, _, hi⟩, hpast⟩
      · obtain ⟨_, hnext⟩ := byteRefusesOnlyPastDeclared (dataField w) (s.beginEdge rest)
        rw [step_of_byteWord hi]
        exact .inr (hnext hpast)
    · exact .inr ⟨_, step_of_decode hi rfl hd⟩
    · exact .inl ⟨.reservedCommand _, w, rest, hi, hge, rfl⟩
  · exact .inr ⟨_, step_of_rst hi rfl⟩

/-- A refusal is answered exactly when it is due: a step that completes or answers another refusal does not answer it. -/
theorem step_refused_iff (s : State) (r : Refusal) : step s = .refused r ↔ s.RefusalDue r := by
  refine ⟨fun h => ?_, step_of_refusalDue⟩
  rcases refusalDue_or_step_next s with ⟨r', hr'⟩ | ⟨t, ht⟩
  · rw [step_of_refusalDue hr'] at h
    cases h
    exact hr'
  · rw [ht] at h
    cases h

/-- Settles O10: each refusal is answered exactly when it is due, and a step that answers none of them completes. -/
theorem stepRefusesExactlyWhen : Obligations.StepRefusesExactlyWhen := by
  intro s
  refine ⟨step_refused_iff s .noInput, fun d => step_refused_iff s (.reservedCommand d),
    step_refused_iff s .payloadPastDeclared, fun h hpast => ?_, fun hin hres hpast => ?_⟩
  · exact h.not_bytePastDeclaredDue ((step_refused_iff s .payloadPastDeclared).1 hpast)
  · refine (refusalDue_or_step_next s).resolve_left ?_
    rintro ⟨r, hr⟩
    have hstep := step_of_refusalDue hr
    cases r with
    | notModelled _ => exact hr
    | reservedCommand d => exact hres d hstep
    | noInput => exact hin hstep
    | payloadPastDeclared => exact hpast hstep

/-! ### The codes of the outputs (30_encoding.md R78, R79) -/

/-- There are seven phases, so one code of three bits is left over. -/
theorem Phase.code_ne_seven (p : Phase) : p.code ≠ 7 := by
  cases p <;> decide

/-- There are three reasons, so one code of two bits is left over. -/
theorem Reason.code_ne_three (x : Reason) : x.code ≠ 3 := by
  cases x <;> decide

/-- Settles O42: the tables are the definitions of the codes, and the ports show the codes of the registers. -/
theorem outputCodes : Obligations.OutputCodes :=
  ⟨rfl, rfl, rfl, rfl, fun s _ => ⟨rfl, rfl, rfl, s.phase.code_ne_seven, s.reason.code_ne_three⟩⟩

end Sys2Proof.Machine
end

section
/-! Streams of command words, RESET and IDLE (30_encoding.md section 2; 40_reset_idle.md). -/

namespace Sys2Proof.Machine

/-! ### Streams of command words (30_encoding.md R71 to R75; 40_reset_idle.md R103) -/

/-- A command carries both fields of its word, so it encodes to that word again. -/
theorem encode_of_decode {w : CmdWord} {i : Instr} (h : decode w = .ok i) : encode i = w := by
  have hfields := packWord_fields w
  rcases decode_cases w with ⟨hop, hd⟩ | ⟨hop, hd⟩ | ⟨hop, hd⟩ | ⟨_, hd⟩ <;> rw [hd] at h <;> cases h
  all_goals
    rw [hop] at hfields
    exact hfields

/-- A stream decodes when its first word and the others do, to the command of the first before theirs. -/
theorem decodeStream_cons_eq_ok {w : CmdWord} {ws : List CmdWord} {prog : List Instr} :
    decodeStream (w :: ws) = .ok prog ↔
      ∃ i is, decode w = .ok i ∧ decodeStream ws = .ok is ∧ i :: is = prog := by
  rcases hw : decode w with e | i
  · simp [decodeStream, hw]
  · rcases hws : decodeStream ws with e | is <;> simp [decodeStream, hw, hws]

theorem decodeStream_encodeStream (prog : List Instr) : decodeStream (encodeStream prog) = .ok prog := by
  simpa using decodeStream_encodeStream_append prog (ws := []) rfl

theorem encodeStream_of_decodeStream {ws : List CmdWord} {prog : List Instr} (h : decodeStream ws = .ok prog) :
    encodeStream prog = ws := by
  induction ws generalizing prog with
  | nil =>
    cases h
    rfl
  | cons w ws ih =>
    obtain ⟨i, is, hw, hws, rfl⟩ := decodeStream_cons_eq_ok.1 h
    show encode i :: encodeStream is = w :: ws
    rw [encode_of_decode hw, ih hws]

/-- A stream without a reserved word decodes. -/
theorem decodeStream_ok_of_legal {ws : List CmdWord} (h : ∀ w ∈ ws, w.toNat < 0x300) :
    ∃ prog, decodeStream ws = .ok prog := by
  induction ws with
  | nil => exact ⟨[], rfl⟩
  | cons w ws ih =>
    obtain ⟨hw, hws⟩ := List.forall_mem_cons.1 h
    obtain ⟨i, hi⟩ := decode_ok_of_legal hw
    obtain ⟨is, his⟩ := ih hws
    exact ⟨i :: is, decodeStream_cons_eq_ok.2 ⟨i, is, hi, his, rfl⟩⟩

/-- A stream that decodes is an encoding, and no command encodes to a reserved word. -/
theorem legal_of_decodeStream {ws : List CmdWord} {prog : List Instr} (h : decodeStream ws = .ok prog) :
    ∀ w ∈ ws, w.toNat < 0x300 := by
  rw [← encodeStream_of_decodeStream h]
  exact fun w hw => of_decide_eq_true (encodeStream_legal prog w hw)

/-- Settles O2: decoding and encoding are inverse word by word, and only the reserved words fail to decode. -/
theorem streamsEncodeAndDecode : Obligations.StreamsEncodeAndDecode :=
  ⟨decodeStream_encodeStream, fun _ _ => encodeStream_of_decodeStream,
    fun _ => ⟨fun ⟨_, h⟩ => legal_of_decodeStream h, decodeStream_ok_of_legal⟩⟩

/-! ### The meanings of RESET and IDLE (40_reset_idle.md R100 to R104) -/

theorem exec_reset (d : Byte) (s : State) : exec (.reset d) s = .next s.fullReset := rfl

theorem exec_idle (d : Byte) (s : State) : exec (.idle d) s = .next s.noResult := rfl

/-- The reset procedure writes constants only, so a second one changes nothing. -/
@[simp] theorem State.fullReset_fullReset (s : State) : s.fullReset.fullReset = s.fullReset := rfl

/-- Settles O19: the state written out is that of the reset procedure. -/
theorem resetCommandEffect : Obligations.ResetCommandEffect := exec_reset

/-- Settles O20: the reset procedure is idempotent, whatever the data bits of the two commands. -/
theorem resetIsIdempotent : Obligations.ResetIsIdempotent := by
  intro d e s
  refine ⟨s.fullReset, exec_reset d s, ?_, State.fullReset_phase s, State.fullReset_declLen s,
    State.fullReset_cursor s⟩
  rw [exec_reset, State.fullReset_fullReset]

/-- Settles O21: the state written out is the one with no result. -/
theorem idleOnlyClearsResult : Obligations.IdleOnlyClearsResult := exec_idle

/-! ### Runs of IDLE edges (40_reset_idle.md R102; 60_exceptions.md R161, R165) -/

/-- An edge that presents a word of op 00 clears the result register. -/
theorem step_of_idleWord {s : State} {w : CmdWord} {rest : List EdgeInput} (hi : s.inputs = ⟨false, w⟩ :: rest)
    (hw : w.toNat < 0x100) : step s = .next (s.beginEdge rest).noResult := by
  rcases decode_ranges w with ⟨_, hd⟩ | ⟨_, _, _⟩ | ⟨_, _, _⟩ | ⟨_, _⟩
  · rw [step_of_decode hi rfl hd, exec_idle]
  all_goals omega

/-- The state `n ≥ 1` IDLE edges after `s`, with the inputs `rest` left. -/
def State.afterIdle (n : Nat) (rest : List EdgeInput) (s : State) : State :=
  { s with res := .none, reason := .noReason, inputs := rest, edge := s.edge + n }

/-- What a run records of an IDLE edge in the state `s`: no result, no frame, and the phase held. -/
def State.idleObservation (s : State) : Observation where
  res := .none
  reason := .noReason
  phase := s.phase
  frame := none

/-- One IDLE edge, and then `n` more, are `n + 1`. -/
theorem State.afterIdle_noResult_beginEdge (n : Nat) (rest later : List EdgeInput) (s : State) :
    (s.beginEdge later).noResult.afterIdle n rest = s.afterIdle (n + 1) rest := by
  have hedge : s.edge + 1 + n = s.edge + (n + 1) := by omega
  simp only [State.afterIdle, State.noResult_edge, State.beginEdge_edge, hedge]
  rfl

/-- An IDLE edge is observed first. -/
theorem observe_succ_of_idleWord {s : State} {w : CmdWord} {rest : List EdgeInput}
    (hi : s.inputs = ⟨false, w⟩ :: rest) (hw : w.toNat < 0x100) (k : Nat) :
    observe (k + 1) s =
      (observe k (s.beginEdge rest).noResult).map fun r => (s.idleObservation :: r.1, r.2) :=
  observe_succ_of_step (step_of_idleWord hi hw) k

/-- A nonempty run of IDLE words, each edge of which is observed alike. -/
theorem observe_idleWords {s : State} {w : CmdWord} {ws : List CmdWord} {rest : List EdgeInput}
    (hlt : ∀ v ∈ w :: ws, v.toNat < 0x100) (hi : s.inputs = presented (w :: ws) ++ rest) :
    observe (w :: ws).length s =
      some (List.replicate (w :: ws).length s.idleObservation, s.afterIdle (w :: ws).length rest) := by
  induction ws generalizing s w with
  | nil =>
    obtain ⟨hw, _⟩ := List.forall_mem_cons.1 hlt
    exact observe_succ_of_idleWord hi hw 0
  | cons v vs ih =>
    obtain ⟨hw, hvs⟩ := List.forall_mem_cons.1 hlt
    rw [List.length_cons, observe_succ_of_idleWord (rest := presented (v :: vs) ++ rest) hi hw, ih hvs rfl,
      Option.map_some, State.afterIdle_noResult_beginEdge]
    rfl

/-- Settles O22: all observations of the run are that of one IDLE edge. -/
theorem idleEdgesHoldState : Obligations.IdleEdgesHoldState := by
  intro s ws rest hne hlt hi
  obtain ⟨w, ws, rfl⟩ := List.exists_cons_of_ne_nil hne
  refine ⟨_, observe_idleWords hlt hi, fun o ho => ?_⟩
  obtain rfl := List.eq_of_mem_replicate ho
  exact ⟨rfl, rfl, rfl, rfl⟩

end Sys2Proof.Machine
end

section
/-! BYTE, row by row, and what it reports (41_accept_byte.md R110 to R124, R130). -/

namespace Sys2Proof.Machine

/-! ### The rows of the phases with one outcome function -/

theorem execByte_awaitingStart {s : State} (hp : s.phase = .awaitingStart) (b : Byte) :
    execByte b s = .next (acceptStart b s) := by simp only [execByte, hp]

theorem execByte_readingLength {s : State} (hp : s.phase = .readingLength) (b : Byte) :
    execByte b s = .next (acceptLength b s) := by simp only [execByte, hp]

theorem execByte_readingChecksum {s : State} (hp : s.phase = .readingChecksum) (b : Byte) :
    execByte b s = .next (acceptChecksum b s) := by simp only [execByte, hp]

theorem execByte_awaitingEnd {s : State} (hp : s.phase = .awaitingEnd) (b : Byte) :
    execByte b s = .next (acceptEnd b s) := by simp only [execByte, hp]

/-- The implicit reset of R111. -/
theorem execByte_terminal {s : State} (hp : s.phase = .complete ∨ s.phase = .error) (b : Byte) :
    execByte b s = .next (acceptStart b s.resetCore) := by
  rcases hp with hp | hp <;> simp only [execByte, hp]

theorem acceptEnd_etx (s : State) :
    acceptEnd etx s = { s with phase := .complete, res := .frameReady, reason := .noReason } := if_pos rfl

theorem acceptEnd_of_ne_etx {b : Byte} (hb : b ≠ etx) (s : State) :
    acceptEnd b s = s.reject .unexpectedByte := if_neg hb

/-! ### The rows as whole next states -/

/-- Settles O24: the two branches of AwaitingStart. -/
theorem startByteOrNoise : Obligations.StartByteOrNoise := by
  intro b s hp
  show (_ → execByte b s = _) ∧ (_ → execByte b s = _)
  rw [execByte_awaitingStart hp]
  rcases acceptStart_cases b s with ⟨hb, e⟩ | ⟨hb, e⟩ <;> rw [e]
  · exact ⟨fun _ => rfl, fun hne => absurd hb hne⟩
  · exact ⟨fun heq => absurd heq hb, fun _ => rfl⟩

/-- Settles O25: the two branches of ReadingLength; neither looks at the capacity. -/
theorem lengthByteTaken : Obligations.LengthByteTaken := by
  intro b s hp
  show (_ → execByte b s = _) ∧ (_ → execByte b s = _)
  rw [execByte_readingLength hp]
  rcases acceptLength_cases b s with ⟨hb, e⟩ | ⟨hb, e⟩ <;> rw [e]
  · exact ⟨fun hne => absurd hb hne, fun _ => rfl⟩
  · exact ⟨fun _ => rfl, fun heq => absurd heq hb⟩

/-- Settles O26: the byte is appended, and the cursor below the declared length cannot wrap. -/
theorem payloadByteAppended : Obligations.PayloadByteAppended := by
  intro b s hp hcap hdue
  refine ⟨_, execByte_of_storesPayload ⟨hp, hcap, hdue⟩ b, hdue.trans_le hcap, fun i => ?_, cursor_add_one hdue,
    fun hlast => if_pos hlast, fun hmore => if_neg hmore, rfl, rfl, rfl, rfl, rfl, rfl, rfl⟩
  rw [State.emit_buf, State.append_buf, Memory.read_write]
  exact if_congr eq_comm rfl rfl

/-- Settles O27: the capacity is tested before the cursor, and a length is a byte, so at most 255. -/
theorem payloadTooLargeRejected : Obligations.PayloadTooLargeRejected := by
  refine ⟨fun b s hp hcap => execByte_of_exceedsCap hp hcap b, fun s hbig => ?_⟩
  have hlen := s.declLen.isLt
  omega

/-- Settles O29: ReadingChecksum has one branch. -/
theorem checksumByteCaptured : Obligations.ChecksumByteCaptured :=
  fun b _ hp => execByte_readingChecksum hp b

/-- Below the cursor and the capacity the read port shows the stored byte (42_observation.md R143). -/
theorem State.readPort_of_lt {s : State} {i : Nat} (hcur : i < s.cursor.toNat) (hcap : i < s.cap.val) :
    s.readPort i = s.memRead i := if_pos ⟨hcur, hcap⟩

/-- The frame offered in Complete, where the whole declared length has been stored (41_accept_byte.md R123). -/
theorem State.frameOut_complete {s : State} (hp : s.phase = .complete) (hcur : s.cursor = s.declLen)
    (hcap : s.declLen.toNat ≤ s.cap.val) :
    s.frameOut = some {
      length := s.declLen, payload := (List.range s.declLen.toNat).map s.memRead, checksum := s.chk } := by
  have hvalid : s.frameValid = true := by simp only [State.frameValid, hp]
  have hread : (List.range s.declLen.toNat).map s.readPort = (List.range s.declLen.toNat).map s.memRead :=
    List.map_congr_left fun i hi => by
      have hlt := List.mem_range.1 hi
      exact State.readPort_of_lt (by rwa [hcur]) (hlt.trans_le hcap)
  rw [State.frameOut, if_pos hvalid, hread]

/-- Settles O30: the two branches of AwaitingEnd; ETX touches no register of the frame. -/
theorem endByteDecidesFrame : Obligations.EndByteDecidesFrame := by
  intro b s hp
  have hx : exec (.byte b) s = .next (acceptEnd b s) := execByte_awaitingEnd hp b
  rw [hx]
  refine ⟨?_, fun hb => by rw [acceptEnd_of_ne_etx hb]; rfl, ?_⟩
  · rintro rfl
    exact congrArg _ (acceptEnd_etx s)
  · rintro rfl hcur hcap
    refine ⟨_, congrArg _ (acceptEnd_etx s), ?_⟩
    exact State.frameOut_complete (s := { s with phase := .complete, res := .frameReady, reason := .noReason })
      rfl hcur hcap

/-- Settles O31: the reset procedure, then the two branches of AwaitingStart. -/
theorem terminalPhaseRestarts : Obligations.TerminalPhaseRestarts := by
  intro b s hp
  refine (execByte_terminal hp b).trans (congrArg _ ?_)
  rcases acceptStart_cases b s.resetCore with ⟨rfl, e⟩ | ⟨hb, e⟩ <;> rw [e]
  · rfl
  · have hb' : b ≠ 0x02 := hb
    rw [if_neg hb']
    rfl

/-! ### What BYTE reports (41_accept_byte.md R122) -/

/-- Where BYTE reports an outcome of the frame: AwaitingEnd, and ReadingPayload beyond the capacity. -/
abbrev State.OutcomeDue (s : State) : Prop :=
  s.phase = .awaitingEnd ∨ (s.phase = .readingPayload ∧ s.cap.val < s.declLen.toNat)

/-- Everything BYTE can report, with the phase it leaves: the three outcomes, and Continue. -/
theorem execByte_reports {b : Byte} {s t : State} (h : execByte b s = .next t) :
    (s.phase = .awaitingEnd ∧ b = 0x03 ∧ t.phase = .complete ∧ t.res = .frameReady ∧ t.reason = .noReason) ∨
    (s.phase = .awaitingEnd ∧ b ≠ 0x03 ∧ t.phase = .error ∧ t.res = .frameRejected ∧ t.reason = .unexpectedByte) ∨
    (s.phase = .readingPayload ∧ s.cap.val < s.declLen.toNat ∧ t.phase = .error ∧ t.res = .frameRejected ∧
      t.reason = .payloadTooLarge) ∨
    (¬ s.OutcomeDue ∧ t.phase.terminal = false ∧ t.res = .cont ∧ t.reason = .noReason) := by
  have hstart (u : State) (hu : u.phase = .awaitingStart) : (acceptStart b u).phase.terminal = false ∧
      (acceptStart b u).res = .cont ∧ (acceptStart b u).reason = .noReason := by
    rcases acceptStart_cases b u with ⟨_, e⟩ | ⟨_, e⟩ <;> rw [e]
    · exact ⟨rfl, rfl, rfl⟩
    · exact ⟨congrArg Phase.terminal hu, rfl, rfl⟩
  rcases execByte_cases h with ⟨hp, rfl⟩ | ⟨hp, rfl⟩ | ⟨hp, hcap, rfl⟩ | ⟨hp, hcap, hdue, rfl⟩ | ⟨hp, rfl⟩ |
    ⟨hp, rfl⟩ | ⟨hp, rfl⟩
  · exact .inr (.inr (.inr ⟨by simp [hp], hstart s hp⟩))
  · refine .inr (.inr (.inr ⟨by simp [hp], ?_⟩))
    rcases acceptLength_cases b s with ⟨_, e⟩ | ⟨_, e⟩ <;> rw [e] <;> exact ⟨rfl, rfl, rfl⟩
  · exact .inr (.inr (.inl ⟨hp, hcap, rfl, rfl, rfl⟩))
  · refine .inr (.inr (.inr ⟨by simp [hp, hcap], ?_, rfl, rfl⟩))
    rw [State.emit_phase, State.append_phase]
    split <;> rfl
  · exact .inr (.inr (.inr ⟨by simp [hp], rfl, rfl, rfl⟩))
  · rcases acceptEnd_cases b s with ⟨hb, e⟩ | ⟨hb, e⟩ <;> rw [e]
    · exact .inl ⟨hp, hb, rfl, rfl, rfl⟩
    · exact .inr (.inl ⟨hp, hb, rfl, rfl, rfl⟩)
  · refine .inr (.inr (.inr ⟨?_, hstart s.resetCore rfl⟩))
    rcases hp with hp | hp <;> simp [hp]

/-- Where no outcome is due, a byte reports Continue. -/
theorem execByte_cont {b : Byte} {s t : State} (h : execByte b s = .next t) (hno : ¬ s.OutcomeDue) :
    t.res = .cont ∧ t.reason = .noReason := by
  rcases execByte_reports h with ⟨hp, _⟩ | ⟨hp, _⟩ | ⟨hp, hcap, _⟩ | ⟨_, _, hrep⟩
  · exact absurd (.inl hp) hno
  · exact absurd (.inl hp) hno
  · exact absurd (.inr ⟨hp, hcap⟩) hno
  · exact hrep

/-- In a terminal phase every byte reports Continue. -/
theorem exists_execByte_cont_of_terminal {s : State} (hp : s.phase = .complete ∨ s.phase = .error) (b : Byte) :
    ∃ t, execByte b s = .next t ∧ t.res = .cont :=
  ⟨_, terminalPhaseRestarts b s hp, rfl⟩

/-- Settles O33: each report has its own rows, and an outcome leaves a terminal phase. -/
theorem oneResultPerByte : Obligations.OneResultPerByte := by
  intro b s t h
  rcases execByte_reports h with ⟨hp, hb, htp, hres, hreason⟩ | ⟨hp, hb, htp, hres, hreason⟩ |
    ⟨hp, hcap, htp, hres, hreason⟩ | ⟨hno, _, hres, _⟩
  · exact ⟨by simp [hp, hb, hres], by simp [hp, hres], by simp [hb, hres], by simp [hp, hres],
      fun _ => exists_execByte_cont_of_terminal (.inl htp)⟩
  · exact ⟨by simpa [hp, hres] using hb, by simp [hp, hreason], by simpa [hp, hres, hreason] using hb,
      by simp [hp, hres], fun _ => exists_execByte_cont_of_terminal (.inr htp)⟩
  · exact ⟨by simp [hp, hres], by simp [hp, hcap, hres, hreason], by simp [hp, hreason], by simp [hp, hcap, hres],
      fun _ => exists_execByte_cont_of_terminal (.inr htp)⟩
  · obtain ⟨he, hr⟩ := not_or.1 hno
    exact ⟨by simp [hres, he], by simp [hres, hr], by simp [hres, he], iff_of_true hres hno,
      fun hne => absurd hres hne⟩

/-- Settles O37: a reset leaves AwaitingStart and IDLE the phase as it was, so the edge was a BYTE, and only one report of
BYTE comes with Complete. -/
theorem completeEnteredOnlyByEtx : Obligations.CompleteEnteredOnlyByEtx := by
  intro s t h htp hne
  obtain ⟨⟨rst, w⟩, rest, hi, _⟩ := step_next_cases h
  rcases step_next_ranges hi h with ⟨_, rfl⟩ | ⟨_, _, rfl⟩ | ⟨hr, hge, hlt, hx⟩
  · cases htp
  · exact absurd htp hne
  · rcases execByte_reports hx with ⟨hp, hb, _, hres, _⟩ | ⟨_, _, hp, _⟩ | ⟨_, _, hp, _⟩ | ⟨_, hp, _⟩
    · refine ⟨hp, ?_, hres⟩
      have hw : byteWord 0x03 = w := (congrArg byteWord hb).symm.trans (byteWord_dataField hge hlt)
      cases hr
      rw [inputs_of_step hi h, hw, hi]
    · cases htp.symm.trans hp
    · cases htp.symm.trans hp
    · rw [htp] at hp
      cases hp

/-- Settles O32: each phase by its row. -/
theorem controlTableAtThePins : Obligations.ControlTableAtThePins := by
  intro s b rest hi hdue
  rw [step_of_byteWord hi]
  rcases hp : s.phase
  case awaitingStart =>
    refine ⟨_, execByte_awaitingStart (s := s.beginEdge rest) hp b, ?_⟩
    rcases acceptStart_cases b (s.beginEdge rest) with ⟨hb, e⟩ | ⟨hb, e⟩ <;> rw [e]
    · exact (if_pos hb).symm
    · exact (congrArg (·, Result.cont, Reason.noReason) hp).trans (if_neg hb).symm
  case readingLength =>
    refine ⟨_, execByte_readingLength (s := s.beginEdge rest) hp b, ?_⟩
    rcases acceptLength_cases b (s.beginEdge rest) with ⟨hb, e⟩ | ⟨hb, e⟩ <;> rw [e]
    · exact (if_pos hb).symm
    · exact (if_neg hb).symm
  case readingPayload =>
    have hdue := hdue hp
    by_cases hcap : s.cap.val < s.declLen.toNat
    · exact ⟨_, execByte_of_exceedsCap (s := s.beginEdge rest) hp hcap b, (if_pos hcap).symm⟩
    · refine ⟨_, execByte_of_storesPayload (s := s.beginEdge rest) ⟨hp, not_lt.1 hcap, hdue⟩ b, ?_⟩
      have hlast : s.cursor + 1 = s.declLen ↔ ¬ s.cursor.toNat + 1 < s.declLen.toNat := by
        rw [← BitVec.toNat_inj, cursor_add_one hdue]
        omega
      rw [if_neg hcap]
      by_cases hmore : s.cursor.toNat + 1 < s.declLen.toNat
      · rw [if_pos hmore]
        exact congrArg (·, Result.cont, Reason.noReason) (if_neg fun h => hlast.1 h hmore)
      · rw [if_neg hmore]
        exact congrArg (·, Result.cont, Reason.noReason) (if_pos (hlast.2 hmore))
  case readingChecksum => exact ⟨_, execByte_readingChecksum (s := s.beginEdge rest) hp b, rfl⟩
  case awaitingEnd =>
    refine ⟨_, execByte_awaitingEnd (s := s.beginEdge rest) hp b, ?_⟩
    rcases acceptEnd_cases b (s.beginEdge rest) with ⟨hb, e⟩ | ⟨hb, e⟩ <;> rw [e]
    · exact (if_pos hb).symm
    · exact (if_neg hb).symm
  case complete | error =>
    exact ⟨_, terminalPhaseRestarts b (s.beginEdge rest) (by simp [hp]),
      apply_ite (·, Result.cont, Reason.noReason) (b = 0x02) _ _⟩

/-! ### The checksum (41_accept_byte.md R124) -/

/-- The state with another checksum. -/
def State.withChk (k : Byte) (s : State) : State := { s with chk := k }

theorem acceptStart_withChk (b k : Byte) (s : State) : acceptStart b (s.withChk k) = (acceptStart b s).withChk k := by
  unfold acceptStart
  split <;> rfl

theorem acceptEnd_withChk (b k : Byte) (s : State) : acceptEnd b (s.withChk k) = (acceptEnd b s).withChk k := by
  unfold acceptEnd
  split <;> rfl

/-- BYTE keeps the checksum, captures the byte in it or clears it: in no row does its value decide anything else. -/
theorem execByte_withChk {b : Byte} {s t : State} (h : execByte b s = .next t) (k : Byte) :
    ∃ k', execByte b (s.withChk k) = .next (t.withChk k') := by
  rcases execByte_cases h with ⟨hp, rfl⟩ | ⟨hp, rfl⟩ | ⟨hp, hcap, rfl⟩ | ⟨hp, hcap, hdue, rfl⟩ | ⟨hp, rfl⟩ |
    ⟨hp, rfl⟩ | ⟨hp, rfl⟩
  · exact ⟨k, (execByte_awaitingStart (s := s.withChk k) hp b).trans (by rw [acceptStart_withChk])⟩
  · exact ⟨k, execByte_readingLength (s := s.withChk k) hp b⟩
  · exact ⟨k, execByte_of_exceedsCap (s := s.withChk k) hp hcap b⟩
  · exact ⟨k, execByte_of_storesPayload (s := s.withChk k) ⟨hp, hcap, hdue⟩ b⟩
  · exact ⟨b, execByte_readingChecksum (s := s.withChk k) hp b⟩
  · exact ⟨k, (execByte_awaitingEnd (s := s.withChk k) hp b).trans (by rw [acceptEnd_withChk])⟩
  · refine ⟨0, (execByte_terminal (s := s.withChk k) hp b).trans ?_⟩
    rw [← acceptStart_withChk]
    rfl

/-- Settles O41: IDLE keeps the checksum, RESET clears it, BYTE goes row by row; a frame's CHK byte is captured and ETX
completes it. -/
theorem checksumSteersNothing : Obligations.ChecksumSteersNothing := by
  refine ⟨fun i s t k h => ?_, fun c s hp => ?_⟩
  · cases i with
    | idle d =>
      cases h
      exact ⟨k, rfl⟩
    | reset d =>
      cases h
      exact ⟨0, rfl⟩
    | byte b => exact execByte_withChk h k
  · refine ⟨_, _, execByte_readingChecksum hp c, execByte_awaitingEnd (s := acceptChecksum c s) rfl etx, ?_⟩
    rw [acceptEnd_etx]
    exact ⟨rfl, rfl, rfl⟩

end Sys2Proof.Machine
end

section
/-! Whole frames, rejected frames and noise at the edges (41_accept_byte.md, section 4). -/

namespace Sys2Proof.Machine

/-! ### Runs of edges -/

@[simp] theorem State.observation_res (s : State) : s.observation.res = s.res := rfl
@[simp] theorem State.observation_reason (s : State) : s.observation.reason = s.reason := rfl
@[simp] theorem State.observation_phase (s : State) : s.observation.phase = s.phase := rfl

/-- What an observation says of the result register. -/
def Observation.report (o : Observation) : Result × Reason := (o.res, o.reason)

/-- Where no outcome is due, a byte is observed with Continue. -/
theorem report_of_execByte {b : Byte} {s t : State} (h : execByte b s = .next t) (hno : ¬ s.OutcomeDue) :
    t.observation.report = (.cont, .noReason) := by
  obtain ⟨hres, hreason⟩ := execByte_cont h hno
  exact Prod.ext hres hreason

/-- A BYTE takes nothing from the coming inputs. -/
theorem inputs_of_execByte {b : Byte} {s t : State} (h : execByte b s = .next t) : t.inputs = s.inputs := by
  obtain ⟨_, hin, _⟩ := exec_keeps_own_fields (i := .byte b) h
  exact hin

theorem cap_of_execByte {b : Byte} {s t : State} (h : execByte b s = .next t) : t.cap = s.cap := by
  obtain ⟨hcap, _, _⟩ := exec_keeps_own_fields (i := .byte b) h
  exact hcap

/-- A run is continued where it ended. -/
theorem observe_add {k m : Nat} {s t u : State} {obs obs' : List Observation} (h : observe k s = some (obs, t))
    (h' : observe m t = some (obs', u)) : observe (k + m) s = some (obs ++ obs', u) := by
  induction k generalizing s obs with
  | zero =>
    cases h
    rwa [Nat.zero_add]
  | succ k ih =>
    rcases hs : step s with v | f | r
    · rw [observe_succ_of_step hs, Option.map_eq_some_iff] at h
      obtain ⟨⟨obs₁, t₁⟩, hv, heq⟩ := h
      cases heq
      rw [Nat.succ_add, observe_succ_of_step hs, ih hv]
      rfl
    · cases f
    · rw [observe_succ_of_refused hs] at h
      cases h

/-! ### Noise before STX (41_accept_byte.md R125) -/

/-- The state `n ≥ 1` bytes of noise after `s`, with the inputs `rest` left. -/
def State.afterNoise (n : Nat) (rest : List EdgeInput) (s : State) : State :=
  { s with res := .cont, reason := .noReason, inputs := rest, edge := s.edge + n }

/-- What a run records of a byte of noise. -/
def noiseObservation : Observation where
  res := .cont
  reason := .noReason
  phase := .awaitingStart
  frame := none

/-- One byte of noise is observed first, and leaves AwaitingStart as it was (41_accept_byte.md R113). -/
theorem observe_succ_of_noise {s : State} {b : Byte} {bs : List Byte} {rest : List EdgeInput}
    (hp : s.phase = .awaitingStart) (hb : b ≠ stx) (hi : s.inputs = presentedBytes (b :: bs) ++ rest) (k : Nat) :
    observe (k + 1) s = (observe k (s.afterNoise 1 (presentedBytes bs ++ rest))).map
      fun r => (noiseObservation :: r.1, r.2) := by
  have hx := (startByteOrNoise b (s.beginEdge (presentedBytes bs ++ rest)) hp).2 hb
  have hobs : (s.afterNoise 1 (presentedBytes bs ++ rest)).observation = noiseObservation := by
    simp [State.observation, State.afterNoise, noiseObservation, hp]
  rw [← hobs]
  exact observe_succ_of_byte hi hx k

/-- A byte of noise, and then `n` more, are `n + 1`. -/
theorem State.afterNoise_afterNoise (n : Nat) (rest later : List EdgeInput) (s : State) :
    (s.afterNoise 1 later).afterNoise n rest = s.afterNoise (n + 1) rest := by
  simp only [State.afterNoise, Nat.add_assoc, Nat.add_comm 1 n]

/-- A nonempty run of noise, each byte of which is observed alike. -/
theorem observe_noise {s : State} {b : Byte} {bs : List Byte} {rest : List EdgeInput}
    (hp : s.phase = .awaitingStart) (hne : ∀ c ∈ b :: bs, c ≠ stx) (hi : s.inputs = presentedBytes (b :: bs) ++ rest) :
    observe (b :: bs).length s =
      some (List.replicate (b :: bs).length noiseObservation, s.afterNoise (b :: bs).length rest) := by
  induction bs generalizing s b with
  | nil => exact observe_succ_of_noise hp (hne b (.head _)) hi 0
  | cons c cs ih =>
    obtain ⟨hb, hcs⟩ := List.forall_mem_cons.1 hne
    rw [List.length_cons, observe_succ_of_noise hp hb hi,
      ih (s := s.afterNoise 1 (presentedBytes (c :: cs) ++ rest)) hp hcs rfl, Option.map_some,
      State.afterNoise_afterNoise]
    rfl

/-- Settles O50: all observations of the run are that of one byte of noise. -/
theorem leadingNoiseDiscarded : Obligations.LeadingNoiseDiscarded := by
  intro s bs rest hp hnil hne hi
  obtain ⟨b, bs, rfl⟩ := List.exists_cons_of_ne_nil hnil
  refine ⟨_, observe_noise hp hne hi, fun o ho => ?_⟩
  obtain rfl := List.eq_of_mem_replicate ho
  exact ⟨rfl, rfl, rfl⟩

/-! ### Rejected frames (41_accept_byte.md R127) -/

/-- The registers after the length byte, which is taken whatever it is (41_accept_byte.md R114, R115). -/
theorem execByte_length_registers {n : Byte} {s : State} (hp : s.phase = .readingLength) :
    ∃ t, execByte n s = .next t ∧ t.declLen = n ∧ t.cursor = 0 ∧
      t.phase = if n = 0 then .readingChecksum else .readingPayload :=
  ⟨_, execByte_readingLength hp n, rfl, rfl, rfl⟩

/-- Outside ReadingPayload no byte is stored. -/
theorem execByte_keeps_buf {b : Byte} {s t : State} (h : execByte b s = .next t) (hp : s.phase ≠ .readingPayload) :
    t.buf = s.buf := by
  rw [execByte_buf h, State.bufAfterByte_of_not_stores fun hst => hp hst.1]

/-- A byte that can start a frame decides none. -/
theorem State.not_outcomeDue_of_start {s : State} (hp : s.phase = .awaitingStart ∨ s.phase = .complete ∨ s.phase = .error) :
    ¬ s.OutcomeDue := by
  rcases hp with hp | hp | hp <;> simp [hp]

theorem State.not_outcomeDue_of_readingLength {s : State} (hp : s.phase = .readingLength) : ¬ s.OutcomeDue := by
  simp [hp]

/-- Settles O48: STX and the length store nothing, and the byte after them is tested against the capacity first. -/
theorem oversizedFrameRejected : Obligations.OversizedFrameRejected := by
  intro s n b rest hp hcap hi
  obtain ⟨u, hu, hup⟩ := execByte_stx (s := s.beginEdge (presentedBytes [n, b] ++ rest)) hp
  have hui := inputs_of_execByte hu
  have hpos : n ≠ 0 := by
    rintro rfl
    exact absurd hcap (Nat.not_lt_zero _)
  obtain ⟨v, hv, hvlen, hvcur, hvp⟩ :=
    execByte_length_registers (n := n) (s := u.beginEdge (presentedBytes [b] ++ rest)) hup
  rw [if_neg hpos] at hvp
  have hvi := inputs_of_execByte hv
  have hvcap : v.cap.val < v.declLen.toNat := by
    rw [hvlen, cap_of_execByte hv, State.beginEdge_cap, cap_of_execByte hu]
    exact hcap
  have hx := execByte_of_exceedsCap (s := v.beginEdge rest) hvp hvcap b
  have hures := execByte_cont hu (State.not_outcomeDue_of_start hp)
  have hvres := execByte_cont hv (State.not_outcomeDue_of_readingLength hup)
  refine ⟨[u.observation, v.observation, ((v.beginEdge rest).reject .payloadTooLarge).observation],
    (v.beginEdge rest).reject .payloadTooLarge, ?_, rfl, by simp [hures, hvres], rfl, hvlen, hvcur, ?_⟩
  · rw [observe_succ_of_byte hi hu, observe_succ_of_byte hui hv, observe_succ_of_byte (bs := []) hvi hx]
    rfl
  · show v.buf = s.buf
    rw [execByte_keeps_buf hv (by simp [hup]), State.beginEdge_buf, execByte_keeps_buf hu ?_, State.beginEdge_buf]
    rcases hp with hp | hp | hp <;> simp [hp]

/-- Settles O49: the rejection leaves Error, where the byte after it is the first of a new frame. -/
theorem rejectingByteConsumed : Obligations.RejectingByteConsumed := by
  intro s b c rest hp hb hi
  obtain ⟨u, hu, hup, hures, hureason⟩ : ∃ u, execByte b (s.beginEdge (presentedBytes [c] ++ rest)) = .next u ∧
      u.phase = .error ∧ u.res = .frameRejected ∧ u.reason = .unexpectedByte :=
    ⟨_, (endByteDecidesFrame b (s.beginEdge (presentedBytes [c] ++ rest)) hp).2.1 hb, rfl, rfl, rfl⟩
  have ht := terminalPhaseRestarts c (u.beginEdge rest) (.inr hup)
  have hobs := observe_succ_of_byte hi hu 1
  rw [observe_succ_of_byte (bs := []) (inputs_of_execByte hu) ht] at hobs
  exact ⟨_, _, hobs, by simp [hures, hureason], rfl, rfl, rfl, rfl⟩

/-! ### A frame within the capacity (41_accept_byte.md R128) -/

/-- A length within the capacity opens the payload; at length zero it is complete already (41_accept_byte.md R114, R115). -/
theorem execByte_length_opens {n : Byte} {s : State} (hp : s.phase = .readingLength) (hcap : n.toNat ≤ s.cap.val) :
    ∃ t, execByte n s = .next t ∧ t.PayloadReceived n [] := by
  obtain ⟨t, ht, hlen, hcur, htp⟩ := execByte_length_registers (n := n) hp
  refine ⟨t, ht, by rwa [cap_of_execByte ht], hlen, by simp [hcur], htp.trans (if_congr ?_ rfl rfl), nofun⟩
  exact BitVec.toNat_inj.symm.trans eq_comm

/-- While bytes are due no outcome is. -/
theorem State.PayloadReceived.not_outcomeDue {n : Byte} {pre : List Byte} {s : State} (h : s.PayloadReceived n pre)
    (hlt : pre.length < n.toNat) : ¬ s.OutcomeDue := by
  obtain ⟨hp, hcap, _⟩ := h.storesPayload hlt
  simp [hp, hcap]

/-- STX and a length within the capacity: Continue at both, and the payload is due next. -/
theorem observe_frameStart {s : State} {n : Byte} {rest : List EdgeInput}
    (hp : s.phase = .awaitingStart ∨ s.phase = .complete ∨ s.phase = .error) (hcap : n.toNat ≤ s.cap.val)
    (hi : s.inputs = presentedBytes [stx, n] ++ rest) :
    ∃ obs t, observe 2 s = some (obs, t) ∧ t.inputs = rest ∧ t.PayloadReceived n [] ∧
      obs.map Observation.report = List.replicate 2 (.cont, .noReason) ∧
      obs.map Observation.phase = [.readingLength, t.phase] := by
  obtain ⟨u, hu, hup⟩ := execByte_stx (s := s.beginEdge (presentedBytes [n] ++ rest)) hp
  obtain ⟨t, ht, hrec⟩ := execByte_length_opens (n := n) (s := u.beginEdge rest) hup
    (by rwa [State.beginEdge_cap, cap_of_execByte hu])
  refine ⟨[u.observation, t.observation], t, ?_, inputs_of_execByte ht, hrec, ?_, by simp [hup]⟩
  · rw [observe_succ_of_byte hi hu, observe_succ_of_byte (bs := []) (inputs_of_execByte hu) ht]
    rfl
  · simp [report_of_execByte hu (State.not_outcomeDue_of_start hp),
      report_of_execByte ht (State.not_outcomeDue_of_readingLength hup)]

/-- The data bytes of a frame to its last: Continue at each, and ReadingPayload before each. -/
theorem observe_wholePayload {n : Byte} {pre data : List Byte} {rest : List EdgeInput} {s : State}
    (h : s.PayloadReceived n pre) (hlen : pre.length + data.length = n.toNat)
    (hi : s.inputs = presentedBytes data ++ rest) :
    ∃ obs t, observe data.length s = some (obs, t) ∧ t.inputs = rest ∧ t.PayloadReceived n (pre ++ data) ∧
      obs.map Observation.report = List.replicate data.length (.cont, .noReason) ∧
      s.phase :: obs.map Observation.phase = List.replicate data.length .readingPayload ++ [.readingChecksum] := by
  induction data generalizing pre s with
  | nil =>
    have hp : s.phase = .readingChecksum := h.phase.trans (if_pos hlen)
    exact ⟨[], s, rfl, hi, by rwa [List.append_nil], rfl, by rw [hp]; rfl⟩
  | cons b bs ih =>
    rw [List.length_cons] at hlen
    have hlt : pre.length < n.toNat := by omega
    have hbegin : (s.beginEdge (presentedBytes bs ++ rest)).PayloadReceived n pre :=
      ⟨h.fits, h.declLen, h.cursor, h.phase, h.stored⟩
    obtain ⟨u, hu, hrec⟩ := execByte_payload hbegin hlt b
    obtain ⟨hp, _, _⟩ := h.storesPayload hlt
    obtain ⟨obs, t, hobs, hti, ht, hreports, hphases⟩ := ih hrec (by simp; omega) (inputs_of_execByte hu)
    refine ⟨u.observation :: obs, t, ?_, hti, by rwa [List.append_assoc] at ht, ?_, ?_⟩
    · rw [List.length_cons, observe_succ_of_byte hi hu, hobs]
      rfl
    · rw [List.map_cons, hreports, report_of_execByte hu (hbegin.not_outcomeDue hlt)]
      rfl
    · rw [List.map_cons, State.observation_phase, hphases, hp]
      rfl

/-- The state after the CHK byte `c` and ETX, with the inputs `rest` left. -/
def State.delivered (c : Byte) (rest : List EdgeInput) (s : State) : State :=
  { s with phase := .complete, chk := c, res := .frameReady, reason := .noReason, inputs := rest, edge := s.edge + 2 }

/-- What a run records of the CHK byte. -/
def checksumObservation : Observation where
  res := .cont
  reason := .noReason
  phase := .awaitingEnd
  frame := none

/-- The last two bytes of a frame (41_accept_byte.md R118, R119). -/
theorem observe_frameEnd {s : State} {c : Byte} {rest : List EdgeInput} (hp : s.phase = .readingChecksum)
    (hi : s.inputs = presentedBytes [c, etx] ++ rest) :
    observe 2 s = some ([checksumObservation, (s.delivered c rest).observation], s.delivered c rest) := by
  have hc := execByte_readingChecksum (s := s.beginEdge (presentedBytes [etx] ++ rest)) hp c
  have he := (execByte_awaitingEnd
    (s := (acceptChecksum c (s.beginEdge (presentedBytes [etx] ++ rest))).beginEdge rest) rfl etx).trans
    (congrArg _ (acceptEnd_etx _))
  rw [observe_succ_of_byte hi hc, observe_succ_of_byte (bs := []) rfl he]
  rfl

/-- The bytes of a payload received whole are those the elements of the buffer hold. -/
theorem State.PayloadReceived.map_memRead {n : Byte} {data : List Byte} {s : State} (h : s.PayloadReceived n data) :
    (List.range data.length).map s.memRead = data := by
  refine List.ext_getElem (by simp) fun i _ hi => ?_
  have hread : s.buf.read i = some data[i] := by rw [h.stored i hi, List.getElem?_eq_getElem hi]
  simp [State.memRead, hread]

/-- A frame received whole is on the outputs once it is delivered (41_accept_byte.md R123). -/
theorem State.PayloadReceived.frameOut_delivered {n : Byte} {data : List Byte} {s : State}
    (h : s.PayloadReceived n data) (hlen : data.length = n.toNat) (c : Byte) (rest : List EdgeInput) :
    (s.delivered c rest).frameOut = some { length := n, payload := data, checksum := c } := by
  have hcur : s.cursor = s.declLen := BitVec.eq_of_toNat_eq (by rw [h.cursor, h.declLen, hlen])
  have hcap : s.declLen.toNat ≤ s.cap.val := by
    rw [h.declLen]
    exact h.fits
  have hout : (s.delivered c rest).frameOut = some {
      length := s.declLen, payload := (List.range s.declLen.toNat).map s.memRead, checksum := c } :=
    State.frameOut_complete (s := s.delivered c rest) rfl hcur hcap
  rw [hout, h.declLen, ← hlen, h.map_memRead]

/-- A frame on the wire is its start, its data and its end (30_encoding.md R80). -/
theorem presentedBytes_wireFrame (data : List Byte) (c : Byte) (rest : List EdgeInput) :
    presentedBytes (wireFrame data c) ++ rest =
      presentedBytes [stx, BitVec.ofNat 8 data.length] ++
        (presentedBytes data ++ (presentedBytes [c, etx] ++ rest)) := by
  simp [wireFrame, presentedBytes, presented, stx, etx]

/-- Settles O46: STX and the length open the payload, the data bytes follow by induction, and CHK and ETX deliver the
frame. -/
theorem wellFormedFrameDelivered : Obligations.WellFormedFrameDelivered := by
  intro s data c rest hp hlen hcap hi
  rw [presentedBytes_wireFrame] at hi
  have hn : data.length = (BitVec.ofNat 8 data.length).toNat := by
    rw [BitVec.toNat_ofNat, Nat.mod_eq_of_lt (by omega)]
  obtain ⟨start, v, hstart, hvi, hv, hstartReports, hstartPhases⟩ := observe_frameStart hp (hn.symm.trans_le hcap) hi
  obtain ⟨obs, w, hobs, hwi, hw, hreports, hphases⟩ := observe_wholePayload hv (by simpa using hn) hvi
  have hend := observe_frameEnd (hw.phase.trans (if_pos hn)) hwi
  refine ⟨start ++ (obs ++ [checksumObservation, (w.delivered c rest).observation]), w.delivered c rest, ?_, rfl, ?_, ?_,
    ?_, rfl, hw.frameOut_delivered hn c rest⟩
  · rw [show data.length + 4 = 2 + (data.length + 2) by omega]
    exact observe_add hstart (observe_add hobs hend)
  · show List.map Observation.report _ = _
    rw [List.map_append, List.map_append, hstartReports, hreports, ← List.append_assoc, List.replicate_append_replicate,
      show data.length + 3 = 2 + data.length + 1 by omega, List.replicate_succ', List.append_assoc]
    rfl
  · rw [List.map_append, List.map_append, hstartPhases]
    show .readingLength :: ((v.phase :: obs.map Observation.phase) ++ [.awaitingEnd, .complete]) = _
    rw [hphases, List.append_assoc]
    rfl
  · rw [← List.append_assoc, List.getLast?_append]
    rfl

end Sys2Proof.Machine
end

section
/-! The outputs (42_observation.md): the status ports, the payload read port, and the frame offered in Complete. -/

namespace Sys2Proof.Machine

variable {s t : State}

/-! ### The ports (42_observation.md R141, R143) -/

@[simp] theorem State.outputs_frameValidO (s : State) (a : Byte) :
    (s.outputs a).frameValidO = BitVec.ofBool s.frameValid := rfl
@[simp] theorem State.outputs_lenO (s : State) (a : Byte) : (s.outputs a).lenO = s.declLen := rfl
@[simp] theorem State.outputs_cursorO (s : State) (a : Byte) : (s.outputs a).cursorO = s.cursor := rfl
@[simp] theorem State.outputs_chkO (s : State) (a : Byte) : (s.outputs a).chkO = s.chk := rfl
@[simp] theorem State.outputs_rdDataO (s : State) (a : Byte) : (s.outputs a).rdDataO = s.readPort a.toNat := rfl

/-- Settles O43: each port is wired to its register. -/
theorem statusOutputsShowRegisters : Obligations.StatusOutputsShowRegisters :=
  fun s a => ⟨s.outputs_lenO a, s.outputs_cursorO a, s.outputs_chkO a⟩

theorem State.row_complete (hp : s.phase = .complete) :
    s.row ↔ s.declLen.toNat ≤ s.cap.val ∧ s.cursor = s.declLen := by simp only [State.row, hp]

theorem State.row_error (hp : s.phase = .error) :
    s.row ↔ (s.cap.val < s.declLen.toNat ∧ s.cursor = 0 ∧ s.chk = 0 ∧ s.reason ≠ .unexpectedByte) ∨
      (s.declLen.toNat ≤ s.cap.val ∧ s.cursor = s.declLen ∧ s.reason ≠ .payloadTooLarge) := by
  simp only [State.row, hp]

/-- In every row of R29 either no byte has been received, or the cursor is at most a length within the capacity. -/
theorem State.cursor_le_cap_of_row (h : s.row) : s.cursor.toNat ≤ s.cap.val := by
  have hzero (hcur : s.cursor = 0) : s.cursor.toNat ≤ s.cap.val := by simp [hcur]
  have hfull (hcap : s.declLen.toNat ≤ s.cap.val) (hcur : s.cursor = s.declLen) : s.cursor.toNat ≤ s.cap.val := by
    rwa [hcur]
  rcases hp : s.phase
  case awaitingStart =>
    obtain ⟨_, hcur, _⟩ := (State.row_awaitingStart hp).1 h
    exact hzero hcur
  case readingLength =>
    obtain ⟨_, hcur, _⟩ := (State.row_readingLength hp).1 h
    exact hzero hcur
  case readingPayload =>
    obtain ⟨hdue, hbig, _⟩ := (State.row_readingPayload hp).1 h
    rcases Nat.lt_or_ge s.cap.val s.declLen.toNat with hcap | hcap
    · exact hzero (hbig hcap)
    · exact hdue.le.trans hcap
  case readingChecksum =>
    obtain ⟨hcap, hcur, _⟩ := (State.row_readingChecksum hp).1 h
    exact hfull hcap hcur
  case awaitingEnd =>
    obtain ⟨hcap, hcur⟩ := (State.row_awaitingEnd hp).1 h
    exact hfull hcap hcur
  case complete =>
    obtain ⟨hcap, hcur⟩ := (State.row_complete hp).1 h
    exact hfull hcap hcur
  case error =>
    rcases (State.row_error hp).1 h with ⟨_, hcur, _⟩ | ⟨hcap, hcur, _⟩
    · exact hzero hcur
    · exact hfull hcap hcur

/-- Below the cursor every byte is stored, and the read port shows it (10_state.md R29; 42_observation.md R143). -/
theorem State.Inv.read_eq_readPort (h : s.Inv) {i : Nat} (hi : i < s.cursor.toNat) :
    s.buf.read i = some (s.readPort i) := by
  obtain ⟨v, hv⟩ := Option.isSome_iff_exists.1 (h.stored i (List.mem_range.2 hi))
  have hcap : i < s.cap.val := hi.trans_le (State.cursor_le_cap_of_row h.row)
  rw [State.readPort_of_lt hi hcap, State.memRead, hv]

/-- At or beyond the cursor or the capacity the read port shows a free value (42_observation.md R143). -/
theorem State.readPort_of_ge {i : Nat} (hi : s.cursor.toNat ≤ i ∨ s.cap.val ≤ i) :
    s.readPort i = Config.staleByte s.edge i := if_neg fun ⟨hcur, hcap⟩ => by omega

/-- Settles O44: below the cursor the port shows what the buffer holds, so equal buffers and cursors show the same. -/
theorem readPortShowsWrittenBytes : Obligations.ReadPortShowsWrittenBytes := by
  refine ⟨fun s a h ha => h.read_eq_readPort ha, fun s t a hs ht hbuf hcur ha => ?_, fun s a => State.readPort_of_ge⟩
  have hread : some (t.readPort a.toNat) = some (s.readPort a.toNat) := by
    rw [← ht.read_eq_readPort (by rwa [hcur]), hbuf, hs.read_eq_readPort ha]
  exact Option.some.inj hread

/-! ### The frame on the outputs (42_observation.md R142) -/

theorem State.frameValid_iff (s : State) : s.frameValid = true ↔ s.phase = .complete := by
  rcases hp : s.phase <;> simp [State.frameValid, hp]

theorem State.frameValidO_iff (s : State) (a : Byte) : (s.outputs a).frameValidO = 1 ↔ s.phase = .complete := by
  rw [State.outputs_frameValidO, ← s.frameValid_iff]
  cases s.frameValid <;> decide

theorem State.frameOut_of_not_complete (hp : s.phase ≠ .complete) : s.frameOut = none :=
  if_neg (mt s.frameValid_iff.1 hp)

/-- In Complete the frame is what the ports show, in any state (41_accept_byte.md R123). -/
theorem State.frameOut_of_complete (hp : s.phase = .complete) :
    s.frameOut = some {
      length := s.declLen, payload := (List.range s.declLen.toNat).map s.readPort, checksum := s.chk } :=
  if_pos (s.frameValid_iff.2 hp)

/-- IDLE keeps the frame: every byte of it is stored below the cursor, so none is a free value drawn at the edge. -/
theorem State.frameOut_noResult_beginEdge (h : s.Inv) (hp : s.phase = .complete) (rest : List EdgeInput) :
    (s.beginEdge rest).noResult.frameOut = s.frameOut := by
  obtain ⟨hcap, hcur⟩ := (State.row_complete hp).1 h.row
  rw [State.frameOut_complete hp hcur hcap]
  exact State.frameOut_complete (s := (s.beginEdge rest).noResult) hp hcur hcap

/-- A byte in Complete withdraws the frame and clears its registers (41_accept_byte.md R111). -/
theorem execByte_withdraws_frame {b : Byte} (hp : s.phase = .complete) (h : execByte b s = .next t) :
    t.frameOut = none ∧ t.declLen = 0 ∧ t.chk = 0 := by
  cases (terminalPhaseRestarts b s (.inl hp)).symm.trans h
  refine ⟨State.frameOut_of_not_complete ?_, rfl, rfl⟩
  show (if b = 0x02 then Phase.readingLength else Phase.awaitingStart) ≠ .complete
  split <;> exact nofun

/-- Settles O45: the ports and the frame are read off, and from Complete each edge is a reset, IDLE or BYTE. -/
theorem frameOfferedWhileComplete : Obligations.FrameOfferedWhileComplete := by
  refine ⟨State.frameValidO_iff, fun s => State.frameOut_of_not_complete, fun s hp => ?_,
    fun s e rest h hp hi hlegal => ?_⟩
  · refine ⟨_, State.frameOut_of_complete hp, fun a => ⟨rfl, rfl⟩, by simp, fun a ha => ?_⟩
    simp [List.getElem?_range ha]
  · obtain ⟨t, ht⟩ := legalEdgesAlwaysComplete s e rest h hi hlegal
    refine ⟨t, ht, ?_⟩
    rcases step_next_ranges hi ht with ⟨hreset, rfl⟩ | ⟨hr, hlt, rfl⟩ | ⟨hr, hge, _, hx⟩
    · refine ⟨fun ⟨hr, hlt⟩ => ?_, fun _ => ⟨State.frameOut_of_not_complete nofun, rfl, rfl⟩⟩
      have hge : 0x200 ≤ e.cmd.toNat := hreset.resolve_left (by simp [hr])
      omega
    · refine ⟨fun _ => State.frameOut_noResult_beginEdge h hp rest, fun hother => ?_⟩
      have hge : 0x100 ≤ e.cmd.toNat := hother.resolve_left (by simp [hr])
      omega
    · exact ⟨fun ⟨_, hlt⟩ => by omega, fun _ => execByte_withdraws_frame (s := s.beginEdge rest) hp hx⟩

end Sys2Proof.Machine
end

section
/-! The rejection, and the ways out of a terminal phase (60_exceptions.md R150, R158). -/

namespace Sys2Proof.Machine

variable {s t : State} {b : Byte}

/-! ### The rejection (60_exceptions.md R150) -/

/-- A byte answered with FrameRejected has performed the rejection, with a reason, and nothing else: either report of
FrameRejected comes from a row that is a rejection of the state before. -/
theorem execByte_rejected (h : execByte b s = .next t) (hres : t.res = .frameRejected) :
    t.reason ≠ .noReason ∧ t = s.reject t.reason := by
  rcases execByte_reports h with ⟨_, _, _, hr, _⟩ | ⟨hp, hb, _⟩ | ⟨hp, hcap, _⟩ | ⟨_, _, hr, _⟩
  · cases hr.symm.trans hres
  · rw [execByte_awaitingEnd hp, acceptEnd_of_ne_etx hb] at h
    cases h
    exact ⟨nofun, rfl⟩
  · rw [execByte_of_exceedsCap hp hcap] at h
    cases h
    exact ⟨nofun, rfl⟩
  · cases hr.symm.trans hres

/-- Settles O35: IDLE and RESET leave no result, and a byte that rejects performs the rejection alone. -/
theorem rejectionChangesNothingElse : Obligations.RejectionChangesNothingElse := by
  intro i s t h hres
  cases i with
  | idle d =>
    cases h
    cases hres
  | byte b => exact ⟨⟨b, rfl⟩, execByte_rejected h hres⟩
  | reset d =>
    cases h
    cases hres

/-! ### The terminal phases (60_exceptions.md R158) -/

/-- Outside ReadingPayload every legal edge is performed: the other refusals are due only without an input and at a
reserved word with `rst = 0`. -/
theorem exists_step_of_legal {e : EdgeInput} {rest : List EdgeInput} (hp : s.phase ≠ .readingPayload)
    (hi : s.inputs = e :: rest) (hlegal : e.rst = true ∨ e.cmd.toNat < 0x300) : ∃ t, step s = .next t := by
  refine (refusalDue_or_step_next s).resolve_left ?_
  rintro ⟨r, hr⟩
  cases r with
  | notModelled _ => exact hr
  | reservedCommand d =>
    obtain ⟨w, later, hi', hw, _⟩ := hr
    cases hi.symm.trans hi'
    exact hw.not_gt (hlegal.resolve_left nofun)
  | noInput => cases hi.symm.trans hr
  | payloadPastDeclared =>
    obtain ⟨_, hpay, _⟩ := hr
    exact hp hpay

/-- A byte in a terminal phase is taken as in AwaitingStart: it leaves the phase and rejects nothing
(41_accept_byte.md R111). -/
theorem execByte_leaves_terminal (hp : s.phase = .complete ∨ s.phase = .error) (h : execByte b s = .next t) :
    (t.phase = .awaitingStart ∨ t.phase = .readingLength) ∧ t.res = .cont := by
  cases (execByte_terminal hp b).symm.trans h
  rcases acceptStart_cases b s.resetCore with ⟨_, e⟩ | ⟨_, e⟩ <;> rw [e]
  · exact ⟨.inr rfl, rfl⟩
  · exact ⟨.inl rfl, rfl⟩

/-- Settles O36: the edge is performed, and it was a reset, IDLE or BYTE, whose ranges exclude each other. -/
theorem terminalPhaseLeftOnlyBy : Obligations.TerminalPhaseLeftOnlyBy := by
  intro s e rest hp hi hlegal
  obtain ⟨t, ht⟩ := exists_step_of_legal (by rcases hp with hp | hp <;> simp [hp]) hi hlegal
  have hword (hr : e.rst = false) (h : e.rst = true ∨ 0x200 ≤ e.cmd.toNat) : 0x200 ≤ e.cmd.toNat :=
    h.resolve_left (by simp [hr])
  refine ⟨t, ht, ?_⟩
  rcases step_next_ranges hi ht with ⟨hreset, rfl⟩ | ⟨hr, hlt, rfl⟩ | ⟨hr, hge, hlt, hx⟩
  · exact ⟨fun ⟨hr, hlt⟩ => absurd (hword hr hreset) (by omega), fun _ => rfl, fun _ => .inl rfl, nofun⟩
  · exact ⟨fun _ => rfl, fun h => absurd (hword hr h) (by omega), fun ⟨_, hge, _⟩ => by omega, nofun⟩
  · obtain ⟨hphase, hres⟩ := execByte_leaves_terminal (s := s.beginEdge rest) hp hx
    exact ⟨fun ⟨_, hidle⟩ => by omega, fun h => absurd (hword hr h) (by omega), fun _ => hphase, by simp [hres]⟩

end Sys2Proof.Machine
end

section
/-! The three resets: the hard reset, RESET and the implicit reset of a terminal phase (70_reset_and_hazards.md R180, R183). -/

namespace Sys2Proof.Machine

/-- Settles O8: an edge with `rst = 1` and the word 0x200 both perform the reset procedure. -/
theorem hardResetOverridesCommand : Obligations.HardResetOverridesCommand := by
  intro s w rest hi
  have hhard : step s = .next (s.beginEdge rest).fullReset := step_of_rst hi rfl
  have hword : step { s with inputs := ⟨false, 0x200#10⟩ :: rest } = .next (s.beginEdge rest).fullReset :=
    step_of_reset rfl (.inr (by decide))
  exact ⟨hhard, hhard.trans hword.symm⟩

/-- A byte in AwaitingStart overwrites the result register, so it does not matter whether that was cleared before. This is
where the implicit reset, which leaves the register, meets RESET, which clears it (40_reset_idle.md R100, R101). -/
theorem acceptStart_noResult (b : Byte) (s : State) : acceptStart b s.noResult = acceptStart b s := by
  rcases acceptStart_cases b s with ⟨hb, e⟩ | ⟨hb, e⟩ <;> rw [e]
  · exact if_pos hb
  · exact if_neg hb

/-- After a reset a byte is taken as a terminal phase takes it (41_accept_byte.md R111). -/
theorem execByte_fullReset (b : Byte) (s : State) : execByte b s.fullReset = .next (acceptStart b s.resetCore) := by
  rw [execByte_awaitingStart (State.fullReset_phase s), State.fullReset, acceptStart_noResult]

/-- Settles O23: both explicit resets answer `fullReset`, and the byte after it acts as the byte in a terminal phase. -/
theorem threeResetsAgree : Obligations.ThreeResetsAgree := by
  intro s d b
  refine ⟨s.fullReset, exec_reset d s, rfl, State.fullReset_phase s, State.fullReset_declLen s, State.fullReset_cursor s,
    State.fullReset_chk s, fun hp => ?_⟩
  exact (execByte_terminal hp b).trans (execByte_fullReset b s).symm

end Sys2Proof.Machine
end

section
/-! The words of 30_encoding.md, section 2, written out bit by bit. -/

namespace Sys2Proof.Machine

/-- Every word of op 11 is refused, with its data byte (30_encoding.md R75). -/
@[simp] theorem decode_packWord_reserved (d : Byte) : decode (packWord 3 d) = .error (.reservedOp d) := by
  simp [decode]

/-- Settles O1: the first six words are the encodings of their commands, the last two are packed from op 11. -/
theorem writtenOutWordsDecode : Obligations.WrittenOutWordsDecode :=
  ⟨decode_encode (.idle 0x00), decode_encode (.idle 0xAB), decode_encode (.byte 0x02), decode_encode (.byte 0xFF),
    decode_encode (.reset 0x00), decode_encode (.reset 0xFF), decode_packWord_reserved 0x00,
    decode_packWord_reserved 0xFF⟩

end Sys2Proof.Machine
end
